-- ==== Sys2Proof/Word.lean ====
section
/-! DEFINITION. The two widths of the block (spec/00_scope.md R7 `BYTE_W` = 8, `LEN_W` = 16; R8).
Nothing in the block is signed and nothing is wider. -/

namespace Sys2Proof

/-- `u8`: a stream byte, a class, an id, a checksum byte, an accumulator (R7, R8). -/
abbrev Byte := BitVec 8

/-- `u16`: the wire length field and the Encoder's index (R7, R8). -/
abbrev Half := BitVec 16

end Sys2Proof
end

