-- ==== Sys2Proof/Syntax.lean ====
section
/-! DEFINITION. The operations of the block, one constructor for each row of spec/opcode_table.json; the two
stage enumerations; and what the decoder reads (`Selector`) and answers when it refuses (`DecodeError`).

The table has four kinds of row, told apart by `format` (spec/30_encoding.md R72): `OP`, an operation of the
caller; `RXBYTE`, an arm of the Decoder's per-byte step; `TXBYTE`, an arm of `ENC.NEXT`; `FRAME`, a frame on the
byte stream. Where a row concerns a Decoder, its first argument `k` is the number of the Decoder instance, the
`dec1.`, `dec2.` of R70 counted from 0 (log entry 2). -/

namespace Sys2Proof

/-- The nine parse stages (spec/10_state.md R22); "an enumerated type with exactly nine, or ten, constructors"
(R67). -/
inductive DecStage
  | seekSync1 | seekSync2 | readClass | readId | readLenLo | readLenHi | readPayload | readCkA | readCkB
  deriving DecidableEq, Repr

/-- The ten stages of the byte-serial Encoder (spec/10_state.md R16). -/
inductive EncStage
  | idle | sync1 | sync2 | cls | id | lenLo | lenHi | payload | ckA | ckB
  deriving DecidableEq, Repr

inductive Instr
  -- format OP (R62, R63)
  | ckCompute (data : List Byte)
  | ckVerify (data : List Byte) (ea eb : Byte)
  | ckClear
  | ckUpdate (x : Byte)
  | ckRead
  | ckMatch (ea eb : Byte)
  | encEncode (cls id : Byte) (payload : List Byte)
  | encStart (cls id : Byte) (payload : List Byte)
  | encNext
  | decReset (k : Nat)
  | decFeed (k : Nat) (bytes : List Byte)
  | decStep (k : Nat) (x : Byte)
  | decPoll (k : Nat)
  -- format RXBYTE (R64); a row whose mask fixes the byte has no byte operand
  | rxSeekSync1Hit (k : Nat)
  | rxSeekSync1Other (k : Nat) (x : Byte)
  | rxSeekSync2Hit (k : Nat)
  | rxSeekSync2Sync1 (k : Nat)
  | rxSeekSync2Other (k : Nat) (x : Byte)
  | rxReadClass (k : Nat) (x : Byte)
  | rxReadId (k : Nat) (x : Byte)
  | rxReadLenLo (k : Nat) (x : Byte)
  | rxReadLenHi (k : Nat) (x : Byte)
  | rxReadPayload (k : Nat) (x : Byte)
  | rxReadCkA (k : Nat) (x : Byte)
  | rxReadCkB (k : Nat) (x : Byte)
  -- format TXBYTE (R65, R94)
  | txIdle
  | txSync1
  | txSync2
  | txClass
  | txId
  | txLenLo
  | txLenHi
  | txPayload
  | txCkA
  | txCkB
  -- format FRAME (R57): the length field is the payload's length
  | frame (k : Nat) (cls id : Byte) (payload : List Byte) (ckA ckB : Byte)
  deriving DecidableEq, Repr

/-- What the decoder reads, one constructor for each `format` of R72. -/
inductive Selector
  /-- The 8-bit code `op` of R63 and then the operand bytes, presented to sub-block instance `k`
  (the operand layout is log entry 3's). -/
  | op (k : Nat) (bytes : List Byte)
  /-- The 12-bit word `{stage[3:0], byte[7:0]}` of R64, formed at Decoder `k`. -/
  | rxWord (k : Nat) (w : BitVec 12)
  /-- The 4-bit `enc.stage` of R65. -/
  | txWord (w : BitVec 4)
  /-- The bytes of a frame in wire order (R57), on the RX stream of Decoder `k`. -/
  | frame (k : Nat) (bytes : List Byte)
  deriving DecidableEq, Repr

/-- Why the decoder refuses, by name. -/
inductive DecodeError
  /-- No `op` byte at all. -/
  | noOpCode
  /-- "An `op` code outside rule R63 is refused" (R67). -/
  | reservedOp (op : Byte)
  /-- The operand bytes are not those the operation takes (R62). -/
  | badOperands (op : Byte)
  /-- There is one Checksum Engine and one Encoder (R13): number 0. -/
  | noSuchUnit (k : Nat)
  /-- "Decoder stage codes 9 to 15 ... name nothing" (R67). -/
  | reservedDecStage (w : BitVec 12)
  /-- "Encoder stage codes 10 to 15 ... name nothing" (R67). -/
  | reservedEncStage (w : BitVec 4)
  /-- The bytes do not begin with the sync pair (R57). -/
  | noSyncPair
  /-- The bytes are not the `8 + N` the header declares (R57, R60). -/
  | frameLength
  deriving DecidableEq, Repr

end Sys2Proof
end

