-- ==== Sys2Proof/WellFormed.lean ====
section
/-! DEFINITION. Which terms of `Instr` are rows of the table with operands the rows admit. The operand types
carry every bound but three: the two `OTHER` rows stand behind rows of higher priority in the table (R64, "the
first matching row wins"), and a frame's payload length fits its 16-bit field (R57). An encode operation's payload
has no bound: a payload over 65535 bytes is an error value of the operation, not an ill-formed operation (R90). -/

namespace Sys2Proof

def Instr.wellFormed : Instr → Bool
  | .ckCompute _ => true
  | .ckVerify _ _ _ => true
  | .ckClear => true
  | .ckUpdate _ => true
  | .ckRead => true
  | .ckMatch _ _ => true
  | .encEncode _ _ _ => true
  | .encStart _ _ _ => true
  | .encNext => true
  | .decReset _ => true
  | .decFeed _ _ => true
  | .decStep _ _ => true
  | .decPoll _ => true
  | .rxSeekSync1Hit _ => true
  | .rxSeekSync1Other _ x => x != 0xB5#8
  | .rxSeekSync2Hit _ => true
  | .rxSeekSync2Sync1 _ => true
  | .rxSeekSync2Other _ x => x != 0x62#8 && x != 0xB5#8
  | .rxReadClass _ _ => true
  | .rxReadId _ _ => true
  | .rxReadLenLo _ _ => true
  | .rxReadLenHi _ _ => true
  | .rxReadPayload _ _ => true
  | .rxReadCkA _ _ => true
  | .rxReadCkB _ _ => true
  | .txIdle => true
  | .txSync1 => true
  | .txSync2 => true
  | .txClass => true
  | .txId => true
  | .txLenLo => true
  | .txLenHi => true
  | .txPayload => true
  | .txCkA => true
  | .txCkB => true
  | .frame _ _ _ payload _ _ => decide (payload.length ≤ 65535)

end Sys2Proof
end

