-- ==== Sys2Proof/Decode.lean ====
section
/-! DEFINITION. The decoder, total on any selector and refusing by name; after it the encoder, from the same
tables (spec/30_encoding.md R57, R63, R64, R65); and the reading of opcode-table words. The byte-order helpers of
R9 and the sync values of R7 stand here because the wire format needs them. -/

namespace Sys2Proof

/-! ## Byte order and the sync pair (R7, R9, R43, R59) -/

/-- `SYNC1` (R7; the literals are unaudited, log entry 19). -/
def sync1 : Byte := 0xB5#8

/-- `SYNC2` (R7). -/
def sync2 : Byte := 0x62#8

/-- `lo8(n) = n[7:0]` (R9). -/
def lo8 (n : Half) : Byte := n.extractLsb' 0 8

/-- `hi8(n) = n[15:8]` (R9). -/
def hi8 (n : Half) : Byte := n.extractLsb' 8 8

/-- `zext_16(v)` (R9). -/
def zext16 (v : Byte) : Half := v.setWidth 16

/-- `le16(b0, b1) = b0 + 256 * b1`; `b0` is the first byte on the wire (R9, R43). -/
def le16 (b0 b1 : Byte) : Half := zext16 b0 + 256#16 * zext16 b1

/-- The length of a payload as the 16-bit field holds it. -/
def lengthField (payload : List Byte) : Half := BitVec.ofNat 16 payload.length

/-- `[class, id, lo8(L), hi8(L)] ++ payload`, the checksum domain of a frame (R58). -/
def frameDomain (cls id : Byte) (payload : List Byte) : List Byte :=
  [cls, id, lo8 (lengthField payload), hi8 (lengthField payload)] ++ payload

/-- The bytes of a frame in wire order (R57), whatever its checksum bytes. -/
def frameBytes (cls id : Byte) (payload : List Byte) (ckA ckB : Byte) : List Byte :=
  [sync1, sync2] ++ frameDomain cls id payload ++ [ckA, ckB]

/-! ## Stage codes (R64, R65) -/

def DecStage.code : DecStage → BitVec 4
  | .seekSync1 => 0#4
  | .seekSync2 => 1#4
  | .readClass => 2#4
  | .readId => 3#4
  | .readLenLo => 4#4
  | .readLenHi => 5#4
  | .readPayload => 6#4
  | .readCkA => 7#4
  | .readCkB => 8#4

def DecStage.ofCode (c : BitVec 4) : Option DecStage :=
  match c.toNat with
  | 0 => some .seekSync1
  | 1 => some .seekSync2
  | 2 => some .readClass
  | 3 => some .readId
  | 4 => some .readLenLo
  | 5 => some .readLenHi
  | 6 => some .readPayload
  | 7 => some .readCkA
  | 8 => some .readCkB
  | _ => none

def EncStage.code : EncStage → BitVec 4
  | .idle => 0#4
  | .sync1 => 1#4
  | .sync2 => 2#4
  | .cls => 3#4
  | .id => 4#4
  | .lenLo => 5#4
  | .lenHi => 6#4
  | .payload => 7#4
  | .ckA => 8#4
  | .ckB => 9#4

def EncStage.ofCode (c : BitVec 4) : Option EncStage :=
  match c.toNat with
  | 0 => some .idle
  | 1 => some .sync1
  | 2 => some .sync2
  | 3 => some .cls
  | 4 => some .id
  | 5 => some .lenLo
  | 6 => some .lenHi
  | 7 => some .payload
  | 8 => some .ckA
  | 9 => some .ckB
  | _ => none

/-- The word `{stage[3:0], byte[7:0]}` (R64). -/
def rxWordOf (stage : DecStage) (x : Byte) : BitVec 12 := stage.code ++ x

/-! ## The decoder -/

/-- There is one Checksum Engine and one Encoder (R13). -/
def onlyUnit (k : Nat) (r : Except DecodeError Instr) : Except DecodeError Instr :=
  if k = 0 then r else .error (.noSuchUnit k)

def operands0 (op : Byte) (args : List Byte) (i : Instr) : Except DecodeError Instr :=
  match args with
  | [] => .ok i
  | _ => .error (.badOperands op)

def operands1 (op : Byte) (args : List Byte) (f : Byte → Instr) : Except DecodeError Instr :=
  match args with
  | [x] => .ok (f x)
  | _ => .error (.badOperands op)

def operands2 (op : Byte) (args : List Byte) (f : Byte → Byte → Instr) : Except DecodeError Instr :=
  match args with
  | [p, q] => .ok (f p q)
  | _ => .error (.badOperands op)

/-- Two bytes and then a byte sequence to the end. -/
def operands2Seq (op : Byte) (args : List Byte) (f : Byte → Byte → List Byte → Instr) :
    Except DecodeError Instr :=
  match args with
  | p :: q :: rest => .ok (f p q rest)
  | _ => .error (.badOperands op)

/-- An operation, from its code (R63) and operand bytes (R62; their layout is log entry 3's: byte operands in R62's
order, `(a, b)` pairs accumulator A first, a byte sequence last and to the end). -/
def decodeOp (k : Nat) (op : Byte) (args : List Byte) : Except DecodeError Instr :=
  match op.toNat with
  | 0x10 => onlyUnit k (.ok (.ckCompute args))
  | 0x11 => onlyUnit k (operands2Seq op args fun ea eb data => .ckVerify data ea eb)
  | 0x12 => onlyUnit k (operands0 op args .ckClear)
  | 0x13 => onlyUnit k (operands1 op args .ckUpdate)
  | 0x14 => onlyUnit k (operands0 op args .ckRead)
  | 0x15 => onlyUnit k (operands2 op args .ckMatch)
  | 0x20 => onlyUnit k (operands2Seq op args .encEncode)
  | 0x21 => onlyUnit k (operands2Seq op args .encStart)
  | 0x22 => onlyUnit k (operands0 op args .encNext)
  | 0x30 => operands0 op args (.decReset k)
  | 0x31 => .ok (.decFeed k args)
  | 0x32 => operands1 op args (.decStep k)
  | 0x33 => operands0 op args (.decPoll k)
  | _ => .error (.reservedOp op)

/-- An arm of the Decoder's per-byte step, from the word of R64: the table's rows in priority order, the
comparisons of the two seek stages on all eight bits (R61). -/
def decodeRx (k : Nat) (w : BitVec 12) : Except DecodeError Instr :=
  let x : Byte := w.extractLsb' 0 8
  match DecStage.ofCode (w.extractLsb' 8 4) with
  | some .seekSync1 => .ok (if x = sync1 then .rxSeekSync1Hit k else .rxSeekSync1Other k x)
  | some .seekSync2 =>
    .ok (if x = sync2 then .rxSeekSync2Hit k
         else if x = sync1 then .rxSeekSync2Sync1 k
         else .rxSeekSync2Other k x)
  | some .readClass => .ok (.rxReadClass k x)
  | some .readId => .ok (.rxReadId k x)
  | some .readLenLo => .ok (.rxReadLenLo k x)
  | some .readLenHi => .ok (.rxReadLenHi k x)
  | some .readPayload => .ok (.rxReadPayload k x)
  | some .readCkA => .ok (.rxReadCkA k x)
  | some .readCkB => .ok (.rxReadCkB k x)
  | none => .error (.reservedDecStage w)

/-- The arm of `ENC.NEXT` for a stage (R94). -/
def txArm : EncStage → Instr
  | .idle => .txIdle
  | .sync1 => .txSync1
  | .sync2 => .txSync2
  | .cls => .txClass
  | .id => .txId
  | .lenLo => .txLenLo
  | .lenHi => .txLenHi
  | .payload => .txPayload
  | .ckA => .txCkA
  | .ckB => .txCkB

def decodeTx (w : BitVec 4) : Except DecodeError Instr :=
  match EncStage.ofCode w with
  | some stage => .ok (txArm stage)
  | none => .error (.reservedEncStage w)

/-- A whole frame: the sync pair, a header, exactly as many payload bytes as the header declares, and the two
checksum bytes (R57). -/
def decodeFrame (k : Nat) (bytes : List Byte) : Except DecodeError Instr :=
  match bytes with
  | s1 :: s2 :: cls :: id :: l :: h :: rest =>
    if s1 = sync1 ∧ s2 = sync2 then
      match rest.drop (le16 l h).toNat with
      | [ckA, ckB] => .ok (.frame k cls id (rest.take (le16 l h).toNat) ckA ckB)
      | _ => .error .frameLength
    else .error .noSyncPair
  | _ => .error .frameLength

def decode : Selector → Except DecodeError Instr
  | .op _ [] => .error .noOpCode
  | .op k (op :: args) => decodeOp k op args
  | .rxWord k w => decodeRx k w
  | .txWord w => decodeTx w
  | .frame k bytes => decodeFrame k bytes

/-! ## The encoder -/

def encode : Instr → Selector
  | .ckCompute data => .op 0 (0x10#8 :: data)
  | .ckVerify data ea eb => .op 0 (0x11#8 :: ea :: eb :: data)
  | .ckClear => .op 0 [0x12#8]
  | .ckUpdate x => .op 0 [0x13#8, x]
  | .ckRead => .op 0 [0x14#8]
  | .ckMatch ea eb => .op 0 [0x15#8, ea, eb]
  | .encEncode cls id payload => .op 0 (0x20#8 :: cls :: id :: payload)
  | .encStart cls id payload => .op 0 (0x21#8 :: cls :: id :: payload)
  | .encNext => .op 0 [0x22#8]
  | .decReset k => .op k [0x30#8]
  | .decFeed k bytes => .op k (0x31#8 :: bytes)
  | .decStep k x => .op k [0x32#8, x]
  | .decPoll k => .op k [0x33#8]
  | .rxSeekSync1Hit k => .rxWord k 0x0B5#12
  | .rxSeekSync1Other k x => .rxWord k (rxWordOf .seekSync1 x)
  | .rxSeekSync2Hit k => .rxWord k 0x162#12
  | .rxSeekSync2Sync1 k => .rxWord k 0x1B5#12
  | .rxSeekSync2Other k x => .rxWord k (rxWordOf .seekSync2 x)
  | .rxReadClass k x => .rxWord k (rxWordOf .readClass x)
  | .rxReadId k x => .rxWord k (rxWordOf .readId x)
  | .rxReadLenLo k x => .rxWord k (rxWordOf .readLenLo x)
  | .rxReadLenHi k x => .rxWord k (rxWordOf .readLenHi x)
  | .rxReadPayload k x => .rxWord k (rxWordOf .readPayload x)
  | .rxReadCkA k x => .rxWord k (rxWordOf .readCkA x)
  | .rxReadCkB k x => .rxWord k (rxWordOf .readCkB x)
  | .txIdle => .txWord 0x0#4
  | .txSync1 => .txWord 0x1#4
  | .txSync2 => .txWord 0x2#4
  | .txClass => .txWord 0x3#4
  | .txId => .txWord 0x4#4
  | .txLenLo => .txWord 0x5#4
  | .txLenHi => .txWord 0x6#4
  | .txPayload => .txWord 0x7#4
  | .txCkA => .txWord 0x8#4
  | .txCkB => .txWord 0x9#4
  | .frame k cls id payload ckA ckB => .frame k (frameBytes cls id payload ckA ckB)

/-! ## Words of the opcode table

The table's rows have 8 bits (`OP`, the code), 12 bits (`RXBYTE`), 4 bits (`TXBYTE`) and 48 bits (`FRAME`, the
header); in whole bytes 8, 16, 8 and 48. Codes of `OP` are 0x10 and above and stage codes are below 0x10, so an
8-bit word is of one kind only (R63, R65). Operand bytes are zeros and a byte sequence is empty; a row of a Decoder is
presented to Decoder 0. -/

/-- How many operand bytes stand before an operation's byte sequence, or in all (R62). -/
def fixedOperands (op : Byte) : Nat :=
  match op.toNat with
  | 0x11 => 2
  | 0x13 => 1
  | 0x15 => 2
  | 0x20 => 2
  | 0x21 => 2
  | 0x32 => 1
  | _ => 0

/-- Byte `i` of a word, byte 0 the least significant. -/
def wordByte (w i : Nat) : Byte := BitVec.ofNat 8 (w / 256 ^ i)

/-- The six header bytes of a 48-bit word in wire order. The table's `bit_order_note` reads byte 0 as the MOST
significant; a word in the other order, `B5` then `62` at its low end, is taken too (log entry 4). -/
def headerBytes (w : Nat) : List Byte :=
  let low := [wordByte w 0, wordByte w 1, wordByte w 2, wordByte w 3, wordByte w 4, wordByte w 5]
  if wordByte w 5 = sync1 ∧ wordByte w 4 = sync2 then low.reverse else low

/-- A header followed by zeros: as many payload bytes as it declares, and two checksum bytes. -/
def zeroFilledFrame (header : List Byte) : List Byte :=
  match header with
  | [_, _, _, _, l, h] => header ++ List.replicate ((le16 l h).toNat + 2) 0#8
  | _ => header

def tableSelector (nbits w : Nat) : Option Selector :=
  if nbits ≤ 8 then
    if w < 16 then some (.txWord (BitVec.ofNat 4 w))
    else if w < 256 then
      some (.op 0 (BitVec.ofNat 8 w :: List.replicate (fixedOperands (BitVec.ofNat 8 w)) 0#8))
    else none
  else if nbits ≤ 16 then
    if w < 4096 then some (.rxWord 0 (BitVec.ofNat 12 w)) else none
  else if nbits = 48 then some (.frame 0 (zeroFilledFrame (headerBytes w)))
  else none

def decodeTableWord (nbits w : Nat) : Option Instr :=
  match tableSelector nbits w with
  | none => none
  | some sel =>
    match decode sel with
    | .ok i => some i
    | .error _ => none

/-! ## The table's `RXBYTE` rows, as data

`decodeRx` is written by stage; the table is written by `match` and `mask`, first matching row first. A statement says that the
two agree. -/

structure RxRow where
  mask : BitVec 12
  value : BitVec 12
  arm : Nat → Byte → Instr

def rxRows : List RxRow :=
  [ ⟨0xFFF#12, 0x0B5#12, fun k _ => .rxSeekSync1Hit k⟩,
    ⟨0xF00#12, 0x000#12, .rxSeekSync1Other⟩,
    ⟨0xFFF#12, 0x162#12, fun k _ => .rxSeekSync2Hit k⟩,
    ⟨0xFFF#12, 0x1B5#12, fun k _ => .rxSeekSync2Sync1 k⟩,
    ⟨0xF00#12, 0x100#12, .rxSeekSync2Other⟩,
    ⟨0xF00#12, 0x200#12, .rxReadClass⟩,
    ⟨0xF00#12, 0x300#12, .rxReadId⟩,
    ⟨0xF00#12, 0x400#12, .rxReadLenLo⟩,
    ⟨0xF00#12, 0x500#12, .rxReadLenHi⟩,
    ⟨0xF00#12, 0x600#12, .rxReadPayload⟩,
    ⟨0xF00#12, 0x700#12, .rxReadCkA⟩,
    ⟨0xF00#12, 0x800#12, .rxReadCkB⟩ ]

/-- "rows in priority order (the first matching row wins)" (R64). -/
def firstRxRow (k : Nat) (w : BitVec 12) : Option Instr :=
  match rxRows.find? fun r => w &&& r.mask == r.value with
  | some r => some (r.arm k (w.extractLsb' 0 8))
  | none => none

end Sys2Proof
end

