-- ==== Sys2Proof/Config.lean ====
section
/-! DEFINITION. The OPEN parameters of spec/00_scope.md R7, as plain data. The spec calls no value of the
block undefined (R52), so there is no free value here: a parameter is data given at creation, and a statement
about every state holds for every value of it. -/

namespace Sys2Proof

/-- The parameters of one Decoder, "fixed for the lifetime of a Decoder instance, given when the instance is
created, and never changed by any operation" (R35). -/
structure DecoderParams where
  /-- `MAX_PAYLOAD`: `none`, or a natural number 0..65535 (R7). -/
  maxPayload : Option Half
  /-- `RESULT_QUEUE_CAP`: `none` (unbounded), or a natural number ≥ 1 (R7). -/
  queueCap : Option Nat
  deriving DecidableEq, Repr

/-- R7's range of `RESULT_QUEUE_CAP`: a number is at least 1. (`MAX_PAYLOAD`'s range is its type's.) -/
def DecoderParams.wf (p : DecoderParams) : Bool :=
  match p.queueCap with
  | none => true
  | some c => decide (1 ≤ c)

/-- "the spec's default is `none`" for both parameters (R7). -/
def DecoderParams.specDefault : DecoderParams := { maxPayload := none, queueCap := none }

/-- What is fixed when the block is created: one entry for each Decoder, the number of Decoders being itself a
parameter of R7. -/
structure Config where
  decoders : List DecoderParams
  deriving DecidableEq, Repr

def Config.wf (c : Config) : Bool := c.decoders.all DecoderParams.wf

/-- DESIGN CHOICE (log entry 1, unsafe): two Decoders, each with the spec's default parameters; two is what the
spec's own program P4 uses. `Machine.State.init` takes any other. -/
def Config.standard : Config :=
  { decoders := [DecoderParams.specDefault, DecoderParams.specDefault] }

end Sys2Proof
end

