-- ==== Sys2Proof/Machine/State.lean ====
section
/-! DEFINITION. The state of the block (spec/10_state.md), as plain data; the reasons a step can stop; the state
after reset. Beside the block's own registers stand two fields of the model's own (log entries 5 and 6): the
operations the caller has presented and not yet had served, and the values returned so far, which R186 says a claim
about a run may speak of. -/

namespace Sys2Proof.Machine

/-! ## Values that cross the interface (R31, R32, R148) -/

/-- One complete message (R31): neither the sync bytes nor a separate length. -/
structure Frame where
  messageClass : Byte
  messageId : Byte
  payload : List Byte
  /-- `(CK_A, CK_B)`. -/
  checksum : Byte × Byte
  deriving DecidableEq, Repr

/-- The block's three error kinds with the fields each records (R150, R151, R152). The fourth kind of D0's
taxonomy, `PayloadLengthMismatch`, "is never produced by the block" (R153). -/
inductive BlockError
  | oversizedPayload
  | checksumMismatch (cls id : Byte)
  | payloadTooLarge (cls id : Byte) (length : Half)
  deriving DecidableEq, Repr

/-- `Result = Frame(f) | Error(e)` (R32). -/
inductive Result
  | frame (f : Frame)
  | error (e : BlockError)
  deriving DecidableEq, Repr

/-! ## The registers -/

/-- The streaming registers of the Checksum Engine (R14). -/
structure Ck where
  a : Byte
  b : Byte
  deriving DecidableEq, Repr

/-- The registers of the byte-serial Encoder (R15). -/
structure Enc where
  stage : EncStage
  cls : Byte
  id : Byte
  length : Half
  payload : List Byte
  index : Half
  a : Byte
  b : Byte
  deriving DecidableEq, Repr

/-- `DecoderState` (R21), and the parameters of the instance (R35). -/
structure Dec where
  stage : DecStage
  cls : Byte
  id : Byte
  length : Half
  payload : List Byte
  a : Byte
  b : Byte
  rxCkA : Byte
  /-- First in, first out; the head is the oldest (R30). -/
  results : List Result
  params : DecoderParams
  deriving DecidableEq, Repr

/-! ## The caller's side -/

/-- What the caller presents: an operation by its code and operand bytes (R62, R63), or one of the port-level forms that
the other kinds of row stand for (R72): a byte of the RX stream arriving at a Decoder, a byte being taken from the
byte-serial Encoder, a whole frame arriving on the RX stream of a Decoder. -/
inductive Request
  | op (k : Nat) (bytes : List Byte)
  | rxByte (k : Nat) (x : Byte)
  | txTake
  | frame (k : Nat) (bytes : List Byte)
  deriving DecidableEq, Repr

/-- A value an operation returns (R62), or that it was turned away. -/
inductive Answer
  /-- The operation returns nothing ("none" in R62's column of results). -/
  | done
  /-- `(a, b)` of `CK.COMPUTE`, `CK.READ`. -/
  | pair (a b : Byte)
  /-- The `bool` of `CK.VERIFY`, `CK.MATCH`. -/
  | truth (v : Bool)
  /-- The byte sequence of `ENC.ENCODE`. -/
  | bytes (out : List Byte)
  /-- An error that is the operation's return value (R150). -/
  | error (e : BlockError)
  /-- `ok` of `ENC.START`. -/
  | ok
  /-- `optional(u8)` of `ENC.NEXT`. -/
  | byte (v : Option Byte)
  /-- `optional(Result)` of `DEC.POLL`. -/
  | result (r : Option Result)
  /-- `ENC.START` "is refused: the block takes no step and `enc` is unchanged" (R182; log entry 7). -/
  | refusedBusy
  /-- These bytes were not consumed, the first of them completing a result that does not fit the queue (R181; log entry 8). -/
  | heldBack (rest : List Byte)
  deriving DecidableEq, Repr

/-- The state of the block: "the disjoint union of the state of its instances" (R13), and the caller's side. -/
structure State where
  ck : Ck
  enc : Enc
  /-- One for each Decoder instance. -/
  decs : List Dec
  /-- Presented and not yet served, the next one first. -/
  requests : List Request
  /-- "the sequence of values returned by the operations" (R186), the first one first. -/
  answers : List Answer
  deriving DecidableEq, Repr

/-! ## Reasons to stop -/

/-- A byte of a payload buffer that does not exist. Both are raised only in states that break R17 or R25, which no
run from a well-formed state reaches (an obligation says so); both are safe (log entry 16). -/
inductive Fault
  /-- `MemRead(enc.payload, i, 1)` with `i` not below the length: "`s[i]` is its element `i` (defined for
  `0 <= i < len(s)`)" (R8). Raised by `ENC.NEXT` and `TX.PAYLOAD` in stage `Payload`. Safe. -/
  | payloadReadOutOfRange (i : Nat)
  /-- `MemWrite(dec.payload, i, 1, v)` with `i` outside the buffer's indices (R39). Raised by `DEC.STEP`, `DEC.FEED`,
  `FRAME` and `RX.READPAYLOAD` in stage `ReadPayload`. Safe. -/
  | payloadWriteOutOfRange (i : Nat)
  deriving DecidableEq, Repr

inductive Refusal
  /-- An instruction that has no meaning yet. Raised by no arm of this model. Safe. -/
  | notModelled (mnemonic : String)
  /-- The presented bytes are no operation: "the block takes no step and no state changes" (R67; log entry 13). Raised
  by `step`. Safe. -/
  | undecodable (why : DecodeError)
  /-- There is no Decoder instance of this number (R7, R13). Raised by `step` and every operation on a Decoder. Safe
  (log entry 14). -/
  | noSuchDecoder (k : Nat)
  /-- An arm of `DEC.STEP` or `ENC.NEXT` taken by itself while the stage or byte selects another: "Exactly one arm
  applies to every `(dec.stage, x)`" (R110, R94). Raised by the `RX.*` and `TX.*` rows; `step` never raises it, since
  it forms the word from the stage. Safe (log entry 15). -/
  | armNotSelected
  deriving DecidableEq, Repr

/-! ## Reset (R37, R171) -/

/-- R37: "`ck.a`, `ck.b` | 0, 0". -/
def Ck.reset : Ck := { a := 0#8, b := 0#8 }

/-- R15, R37: `Idle`, and every other field zero or empty. -/
def Enc.reset : Enc :=
  { stage := .idle, cls := 0#8, id := 0#8, length := 0#16, payload := [], index := 0#16, a := 0#8, b := 0#8 }

/-- The canonical idle state (R29) with an empty queue (R37). -/
def Dec.reset (params : DecoderParams) : Dec :=
  { stage := .seekSync1, cls := 0#8, id := 0#8, length := 0#16, payload := [], a := 0#8, b := 0#8,
    rxCkA := 0#8, results := [], params := params }

/-- The block as created with the parameters `c` (R171 (a), R177): nothing presented and nothing returned yet. -/
def State.init (c : Config) : State :=
  { ck := Ck.reset, enc := Enc.reset, decs := c.decoders.map Dec.reset, requests := [], answers := [] }

def State.reset : State := State.init Config.standard

end Sys2Proof.Machine
end

