-- ==== Sys2Proof/Machine/Ops.lean ====
section
/-! DEFINITION. The named operations every meaning is written over: the checksum, the payload buffers, the result queue,
reporting an error, the caller's side, and what `step` fetches. -/

namespace Sys2Proof.Machine

/-! ## The checksum (R9, R76, R77, R84) -/

/-- `add8(p, q) = (p + q) mod 256`: "wraps, never saturates" (R9). -/
def add8 (p q : Byte) : Byte := p + q

/-- `ck_step((a, b), x)`: the second addition uses the new `a` (R77). -/
def ckStep (ab : Byte × Byte) (x : Byte) : Byte × Byte :=
  (add8 ab.1 x, add8 ab.2 (add8 ab.1 x))

/-- "`fletcher(d)` is the left fold of `ck_step` over `d` from `(0, 0)`" (R77). -/
def fletcher (d : List Byte) : Byte × Byte := d.foldl ckStep (0#8, 0#8)

/-! ## The payload buffers (R38, R39, R40) -/

/-- `MemRead(buf, i, 1)`, defined for an index below the length (R8). -/
def memRead (buf : List Byte) (i : Nat) : Option Byte := buf[i]?

/-- How many bytes a Decoder's buffer has: "indices `0 .. 65534` ..., or `0 .. MAX_PAYLOAD - 1` when `MAX_PAYLOAD` is
a number" (R39). -/
def bufferCapacity (p : DecoderParams) : Nat :=
  match p.maxPayload with
  | none => 65535
  | some m => m.toNat

/-- `MemWrite(buf, i, 1, v)`: "The buffer is written only at index `len(dec.payload)` (append)" (R39). -/
def memWrite (capacity : Nat) (buf : List Byte) (i : Nat) (v : Byte) : Option (List Byte) :=
  if i < capacity ∧ i = buf.length then some (buf ++ [v]) else none

/-! ## The result queue and the Decoder's two endings (R30, R121, R158, R181) -/

/-- Whether one more result fits (R30, R181). -/
def Dec.hasRoom (d : Dec) : Bool :=
  match d.params.queueCap with
  | none => true
  | some c => decide (d.results.length < c)

/-- `Resync()`: the canonical idle state; "`dec.results` is kept" (R121). The parameters are no state (R35). -/
def Dec.resync (d : Dec) : Dec := { Dec.reset d.params with results := d.results }

/-- Append a result at the tail and `Resync()`: the end of a frame, good or bad (R119). Nothing where the result does not
fit: "no step: the byte is not consumed and the state does not change" (R181). -/
def Dec.conclude (d : Dec) (r : Result) : Option Dec :=
  if d.hasRoom then some (Dec.resync { d with results := d.results ++ [r] }) else none

/-- TAKING AN EXCEPTION, the one shared operation: `raise K(info)` of a decode-time error (R10, R158). Saved: the
information fields, in the `Error` appended to the queue. Changed: the parse state, to the canonical idle state; control
goes to `SeekSync1`, "a fixed target". Kept: every result queued, the parameters. There is no return: recovery is part
of the same step (R160). -/
def Dec.raise (d : Dec) (e : BlockError) : Option Dec := d.conclude (.error e)

/-- `emit`: a completed `Frame`, by value (R56, R119). -/
def Dec.emit (d : Dec) (f : Frame) : Option Dec := d.conclude (.frame f)

/-! ## What comes of bytes given to a Decoder -/

inductive RxOutcome
  /-- Every byte was consumed. -/
  | took (d : Dec)
  /-- `d` after the bytes consumed; the rest is held back (R181). -/
  | held (d : Dec) (rest : List Byte)
  | fault (r : Fault)
  deriving DecidableEq, Repr

/-! ## The caller's side and the instances -/

def State.answer (s : State) (v : Answer) : State := { s with answers := s.answers ++ [v] }

def State.setDec (s : State) (k : Nat) (d : Dec) : State := { s with decs := s.decs.set k d }

/-- An operation on Decoder `k`; refused where there is none. -/
def State.onDec (s : State) (k : Nat) (f : Dec → Host.Outcome State Fault Refusal) :
    Host.Outcome State Fault Refusal :=
  match s.decs[k]? with
  | none => .refused (.noSuchDecoder k)
  | some d => f d

/-- Put back what came of the bytes given to Decoder `k`, and answer. -/
def State.settle (s : State) (k : Nat) : RxOutcome → Host.Outcome State Fault Refusal
  | .took d => .next ((s.setDec k d).answer .done)
  | .held d rest => .next ((s.setDec k d).answer (.heldBack rest))
  | .fault r => .fault r

/-! ## Fetch

The block "has no program counter and fetches no instructions" (R33): what runs next is what the caller presents next. For the
port-level forms the selecting word is formed here from the stage register (R64, R65). -/

def fetch (s : State) : Request → Except Refusal Selector
  | .op k bytes => .ok (.op k bytes)
  | .rxByte k x =>
    match s.decs[k]? with
    | none => .error (.noSuchDecoder k)
    | some d => .ok (.rxWord k (rxWordOf d.stage x))
  | .txTake => .ok (.txWord s.enc.stage.code)
  | .frame k bytes => .ok (.frame k bytes)

/-! ## Presenting a word of the opcode table (log entry 9)

An `RXBYTE` or `TXBYTE` word is selected by a stage register, so presenting one puts that sub-block in the word's
stage, unless it is there already: in the simplest state of that stage that meets the invariants of R17 and R28, with a
one-byte payload where the stage needs one. -/

def Dec.atStage (d : Dec) (stage : DecStage) : Dec :=
  if d.stage = stage then d
  else if stage = .readPayload then
    let ab := fletcher [0#8, 0#8, 1#8, 0#8]
    { d.resync with stage := stage, length := 1#16, a := ab.1, b := ab.2 }
  else { d.resync with stage := stage }

def Enc.atStage (e : Enc) (stage : EncStage) : Enc :=
  if e.stage = stage then e
  else if stage = .payload then
    let ab := fletcher [0#8, 0#8, 1#8, 0#8]
    { Enc.reset with stage := stage, length := 1#16, payload := [0#8], a := ab.1, b := ab.2 }
  else { Enc.reset with stage := stage }

def State.present (s : State) (r : Request) : State := { s with requests := r :: s.requests }

/-- A selector the caller can present: the request that `fetch` turns into it, with the stage register set. A word with a
reserved stage code is "unrepresentable in the model" (U1, R67): an operation without a code stands in its place, which is
refused like it. -/
def State.presentSelector (s : State) : Selector → State
  | .op k bytes => s.present (.op k bytes)
  | .rxWord k w =>
    match DecStage.ofCode (w.extractLsb' 8 4) with
    | some stage =>
      { s with decs := s.decs.modify k fun d => d.atStage stage }.present (.rxByte k (w.extractLsb' 0 8))
    | none => s.present (.op k [])
  | .txWord w =>
    match EncStage.ofCode w with
    | some stage => { s with enc := s.enc.atStage stage }.present .txTake
    | none => s.present (.op 0 [])
  | .frame k bytes => s.present (.frame k bytes)

/-- `none` of `tableSelector`, a word of no row's width, is presented as an operation without a code. -/
def State.presentWord (s : State) (nbits w : Nat) : State :=
  match tableSelector nbits w with
  | some sel => s.presentSelector sel
  | none => s.present (.op 0 [])

end Sys2Proof.Machine
end

