-- ==== Sys2Proof/Machine/Flags.lean ====
section
/-! DEFINITION. The conditions the block computes (spec/10_state.md R34): "each is computed and consumed inside one operation
and stored nowhere". The block has no status flag. -/

namespace Sys2Proof.Machine

/-- "`dec.length > MAX_PAYLOAD`", false where there is no limit; "exceeded" is strict (R116). -/
def exceedsMax (p : DecoderParams) (n : Half) : Bool :=
  match p.maxPayload with
  | none => false
  | some m => decide (m.toNat < n.toNat)

/-- "`dec.length > 0`" (R116), "`enc.length > 0`" (R100). -/
def lengthPositive (n : Half) : Bool := decide (0 < n.toNat)

/-- "`len(dec.payload) + 1 = dec.length`", read before the append (R117, R10). -/
def payloadCompletes (d : Dec) : Bool := decide (d.payload.length + 1 = d.length.toNat)

/-- "`dec.a = dec.rx_ck_a and dec.b = x`" (R119). -/
def checksumMatches (d : Dec) (x : Byte) : Bool := decide (d.a = d.rxCkA ∧ d.b = x)

/-- "`L > 65535`" (R90). -/
def oversized (payload : List Byte) : Bool := decide (65535 < payload.length)

/-- "`enc.index + 1 = enc.length`", read before the increment (R101, R10). -/
def lastPayloadByte (e : Enc) : Bool := decide (e.index.toNat + 1 = e.length.toNat)

/-- The level `res_avail = (dec.results is not empty)`, "a pure function of state" (R156). -/
def Dec.resAvail (d : Dec) : Bool := !d.results.isEmpty

end Sys2Proof.Machine
end

