-- ==== Sys2Proof/Machine/Operands.lean ====
section
/-! DEFINITION. The operand and result forms: how the length and the checksum of a frame are formed from the operands of
an encode (R59, R88), how the declared length is assembled (R43, R59, R116), and the codes of results and errors (R149). -/

namespace Sys2Proof.Machine

/-- The bytes of `ENC.ENCODE` for a payload that fits: sync pair, checksum domain, checksum (R88). -/
def encodedBytes (cls id : Byte) (payload : List Byte) : List Byte :=
  let ab := fletcher (frameDomain cls id payload)
  frameBytes cls id payload ab.1 ab.2

/-- What `ENC.ENCODE` returns (R88, R90): the test precedes everything. -/
def encodeAnswer (cls id : Byte) (payload : List Byte) : Answer :=
  if oversized payload then .error .oversizedPayload else .bytes (encodedBytes cls id payload)

/-- `n <- dec.length + 256 * zext_16(x)`; `dec.length` holds the low byte (R116). -/
def assembledLength (low : Half) (x : Byte) : Half := low + 256#16 * zext16 x

/-- What `ENC.START` latches (R93): the whole payload is "captured now" (R189). -/
def Enc.latched (cls id : Byte) (payload : List Byte) : Enc :=
  { stage := .sync1, cls := cls, id := id, length := lengthField payload, payload := payload,
    index := 0#16, a := 0#8, b := 0#8 }

/-- The error kinds' codes (R149). -/
def BlockError.code : BlockError → Nat
  | .oversizedPayload => 1
  | .checksumMismatch _ _ => 2
  | .payloadTooLarge _ _ _ => 3

/-- The result kinds' codes (R149): 0 for `none`. -/
def resultKind : Option Result → Nat
  | none => 0
  | some (.frame _) => 1
  | some (.error _) => 2

end Sys2Proof.Machine
end

