-- ==== Sys2Proof/Machine/Stages.lean ====
section
/-! DEFINITION. The stage rules, once each: the nine stages of the Decoder (spec/42_frame_decoder.md R111 to R119), which
`DEC.STEP`, `DEC.FEED`, `FRAME` and the `RX.*` rows share, and the ten of the byte-serial Encoder (spec/41_frame_encoder.md R95
to R104), which `ENC.NEXT` and the `TX.*` rows share. A right side or a test reads the values before the operation (R10). -/

namespace Sys2Proof.Machine

/-! ## The Decoder's stages -/

/-- A byte of the checksum domain goes into the running accumulators (R26). -/
def Dec.sum (d : Dec) (x : Byte) : Dec :=
  let ab := ckStep (d.a, d.b) x
  { d with a := ab.1, b := ab.2 }

/-- R111, the byte is 0xB5: "No field other than `dec.stage` is written". -/
def Dec.seekSync1Hit (d : Dec) : Dec := { d with stage := .seekSync2 }

/-- R111, any other byte: discarded, "silently". -/
def Dec.seekSync1Other (d : Dec) : Dec := d

/-- R112, the byte is 0x62. -/
def Dec.seekSync2Hit (d : Dec) : Dec := { d with stage := .readClass }

/-- R112, the byte is 0xB5: "treat it as a new candidate sync1". -/
def Dec.seekSync2Sync1 (d : Dec) : Dec := d

/-- R112, any other byte. -/
def Dec.seekSync2Other (d : Dec) : Dec := { d with stage := .seekSync1 }

/-- R113. -/
def Dec.readClass (d : Dec) (x : Byte) : Dec := { d.sum x with cls := x, stage := .readId }

/-- R114. -/
def Dec.readId (d : Dec) (x : Byte) : Dec := { d.sum x with id := x, stage := .readLenLo }

/-- R115. -/
def Dec.readLenLo (d : Dec) (x : Byte) : Dec := { d.sum x with length := zext16 x, stage := .readLenHi }

/-- The byte completes a result; held back where the queue has no room for it (R181). -/
def Dec.concluded (d : Dec) (x : Byte) : Option Dec → RxOutcome
  | some d' => .took d'
  | none => .held d [x]

/-- R116. -/
def Dec.readLenHi (d : Dec) (x : Byte) : RxOutcome :=
  let n := assembledLength d.length x
  let d' := { d.sum x with length := n }
  if exceedsMax d.params n then d.concluded x (d'.raise (.payloadTooLarge d.cls d.id n))
  else if lengthPositive n then .took { d' with stage := .readPayload }
  else .took { d' with stage := .readCkA }

/-- R117. -/
def Dec.readPayload (d : Dec) (x : Byte) : RxOutcome :=
  match memWrite (bufferCapacity d.params) d.payload d.payload.length x with
  | none => .fault (.payloadWriteOutOfRange d.payload.length)
  | some buf =>
    let d' := { d.sum x with payload := buf }
    if payloadCompletes d then .took { d' with stage := .readCkA } else .took d'

/-- R118: no comparison yet; the accumulators are not updated. -/
def Dec.readCkA (d : Dec) (x : Byte) : Dec := { d with rxCkA := x, stage := .readCkB }

/-- R119: exactly one result, and `Resync()` in both arms. -/
def Dec.readCkB (d : Dec) (x : Byte) : RxOutcome :=
  if checksumMatches d x then
    d.concluded x (d.emit { messageClass := d.cls, messageId := d.id, payload := d.payload, checksum := (d.rxCkA, x) })
  else d.concluded x (d.raise (.checksumMismatch d.cls d.id))

/-- `DEC.STEP`: "perform the rule of the current stage" (R110). -/
def Dec.stepByte (d : Dec) (x : Byte) : RxOutcome :=
  match d.stage with
  | .seekSync1 => if x = sync1 then .took d.seekSync1Hit else .took d.seekSync1Other
  | .seekSync2 =>
    if x = sync2 then .took d.seekSync2Hit
    else if x = sync1 then .took d.seekSync2Sync1
    else .took d.seekSync2Other
  | .readClass => .took (d.readClass x)
  | .readId => .took (d.readId x)
  | .readLenLo => .took (d.readLenLo x)
  | .readLenHi => d.readLenHi x
  | .readPayload => d.readPayload x
  | .readCkA => .took (d.readCkA x)
  | .readCkB => d.readCkB x

/-- `DEC.FEED`: one `DEC.STEP` for each byte in index order, each complete before the next reads anything (R109, R10). A
byte that is held back holds back the bytes after it: order is kept and none is dropped (R41, R181). -/
def Dec.feed (d : Dec) : List Byte → RxOutcome
  | [] => .took d
  | x :: rest =>
    match d.stepByte x with
    | .took d' => d'.feed rest
    | .held d' _ => .held d' (x :: rest)
    | .fault r => .fault r

/-! ## The Encoder's stages -/

/-- A byte handed out that belongs to the checksum domain: `ck_step` with that byte (R94). -/
def Enc.sum (e : Enc) (v : Byte) : Enc :=
  let ab := ckStep (e.a, e.b) v
  { e with a := ab.1, b := ab.2 }

/-- What one take gives: the byte, or none, and the Encoder after it. -/
abbrev TxOutcome := Except Fault (Option Byte × Enc)

/-- R104. -/
def Enc.takeIdle (e : Enc) : TxOutcome := .ok (none, e)

/-- R95. -/
def Enc.takeSync1 (e : Enc) : TxOutcome := .ok (some sync1, { e with stage := .sync2 })

/-- R96. -/
def Enc.takeSync2 (e : Enc) : TxOutcome := .ok (some sync2, { e with stage := .cls })

/-- R97. -/
def Enc.takeClass (e : Enc) : TxOutcome := .ok (some e.cls, { e.sum e.cls with stage := .id })

/-- R98. -/
def Enc.takeId (e : Enc) : TxOutcome := .ok (some e.id, { e.sum e.id with stage := .lenLo })

/-- R99. -/
def Enc.takeLenLo (e : Enc) : TxOutcome := .ok (some (lo8 e.length), { e.sum (lo8 e.length) with stage := .lenHi })

/-- R100. -/
def Enc.takeLenHi (e : Enc) : TxOutcome :=
  .ok (some (hi8 e.length),
    { e.sum (hi8 e.length) with stage := if lengthPositive e.length then .payload else .ckA })

/-- R101. -/
def Enc.takePayload (e : Enc) : TxOutcome :=
  match memRead e.payload e.index.toNat with
  | none => .error (.payloadReadOutOfRange e.index.toNat)
  | some v =>
    .ok (some v,
      { e.sum v with index := e.index + 1#16, stage := if lastPayloadByte e then .ckA else .payload })

/-- R102: the accumulators are not updated. -/
def Enc.takeCkA (e : Enc) : TxOutcome := .ok (some e.a, { e with stage := .ckB })

/-- R103: every field takes its reset value. -/
def Enc.takeCkB (e : Enc) : TxOutcome := .ok (some e.b, Enc.reset)

/-- `ENC.NEXT`: "It performs the arm of the current `enc.stage`" (R94). -/
def Enc.take (e : Enc) : TxOutcome :=
  match e.stage with
  | .idle => e.takeIdle
  | .sync1 => e.takeSync1
  | .sync2 => e.takeSync2
  | .cls => e.takeClass
  | .id => e.takeId
  | .lenLo => e.takeLenLo
  | .lenHi => e.takeLenHi
  | .payload => e.takePayload
  | .ckA => e.takeCkA
  | .ckB => e.takeCkB

/-- Put back what came of a take, and answer with the byte. -/
def State.handOut (s : State) : TxOutcome → Host.Outcome State Fault Refusal
  | .ok (v, e) => .next ({ s with enc := e }.answer (.byte v))
  | .error r => .fault r

end Sys2Proof.Machine
end

