-- ==== Sys2Proof/Machine/Checksum.lean ====
section
/-! DEFINITION. The Checksum Engine's operations (spec/40_checksum_engine.md R78 to R83). None can fail. -/

namespace Sys2Proof.Machine

/-- R78: "`ck.a`, `ck.b` are untouched". -/
def execCkCompute (data : List Byte) (s : State) : Host.Outcome State Fault Refusal :=
  .next (s.answer (.pair (fletcher data).1 (fletcher data).2))

/-- R79. -/
def execCkVerify (data : List Byte) (ea eb : Byte) (s : State) : Host.Outcome State Fault Refusal :=
  .next (s.answer (.truth (decide (fletcher data = (ea, eb)))))

/-- R80. -/
def execCkClear (s : State) : Host.Outcome State Fault Refusal :=
  .next ({ s with ck := { a := 0#8, b := 0#8 } }.answer .done)

/-- R81. -/
def execCkUpdate (x : Byte) (s : State) : Host.Outcome State Fault Refusal :=
  let ab := ckStep (s.ck.a, s.ck.b) x
  .next ({ s with ck := { a := ab.1, b := ab.2 } }.answer .done)

/-- R82: "the accumulators are not cleared by reading". -/
def execCkRead (s : State) : Host.Outcome State Fault Refusal :=
  .next (s.answer (.pair s.ck.a s.ck.b))

/-- R83. -/
def execCkMatch (ea eb : Byte) (s : State) : Host.Outcome State Fault Refusal :=
  .next (s.answer (.truth (decide (s.ck.a = ea ∧ s.ck.b = eb))))

end Sys2Proof.Machine
end

