-- ==== Sys2Proof/Machine/Decoder.lean ====
section
/-! DEFINITION. The Decoder's operations (spec/42_frame_decoder.md R108, R109, R110, R122). -/

namespace Sys2Proof.Machine

/-- R108: "keeps nothing but the instance's parameters" (R175). -/
def execDecReset (k : Nat) (s : State) : Host.Outcome State Fault Refusal :=
  s.onDec k fun d => .next ((s.setDec k (Dec.reset d.params)).answer .done)

/-- R109: the machine runs here and not in `DEC.POLL` (R134; log entry 18). -/
def execDecFeed (k : Nat) (bytes : List Byte) (s : State) : Host.Outcome State Fault Refusal :=
  s.onDec k fun d => s.settle k (d.feed bytes)

/-- R110. -/
def execDecStep (k : Nat) (x : Byte) (s : State) : Host.Outcome State Fault Refusal :=
  s.onDec k fun d => s.settle k (d.stepByte x)

/-- R122: the head of the queue, which is removed; nothing where the queue is empty. -/
def execDecPoll (k : Nat) (s : State) : Host.Outcome State Fault Refusal :=
  s.onDec k fun d =>
    match d.results with
    | [] => .next (s.answer (.result none))
    | r :: rest => .next ((s.setDec k { d with results := rest }).answer (.result (some r)))

end Sys2Proof.Machine
end

