-- ==== Sys2Proof/Machine/Encoder.lean ====
section
/-! DEFINITION. The Encoder's operations (spec/41_frame_encoder.md R88, R93, R94). -/

namespace Sys2Proof.Machine

/-- R88, R90: "No other side effects" (R91). -/
def execEncEncode (cls id : Byte) (payload : List Byte) (s : State) : Host.Outcome State Fault Refusal :=
  .next (s.answer (encodeAnswer cls id payload))

/-- R93; while a frame is being handed out it is turned away with none of its effect (R182, log entry 7). -/
def execEncStart (cls id : Byte) (payload : List Byte) (s : State) : Host.Outcome State Fault Refusal :=
  if s.enc.stage ≠ .idle then .next (s.answer .refusedBusy)
  else if oversized payload then .next (s.answer (.error .oversizedPayload))
  else .next ({ s with enc := Enc.latched cls id payload }.answer .ok)

/-- R94. -/
def execEncNext (s : State) : Host.Outcome State Fault Refusal := s.handOut s.enc.take

end Sys2Proof.Machine
end

