-- ==== Sys2Proof/Machine/RxArms.lean ====
section
/-! DEFINITION. The table's `RXBYTE` rows: the arms of `DEC.STEP`, each by itself (spec/30_encoding.md R64, R72). An arm runs
where the Decoder's stage and, in the seek stages, the byte select it; `step` forms the word from the stage, so it never asks
for another. Like `DEC.STEP`, an arm returns nothing. -/

namespace Sys2Proof.Machine

/-- Run an arm of stage `stage` on Decoder `k`; `selected` says whether the byte selects it. -/
def State.onArm (s : State) (k : Nat) (stage : DecStage) (selected : Bool) (arm : Dec → RxOutcome) :
    Host.Outcome State Fault Refusal :=
  s.onDec k fun d =>
    if d.stage = stage ∧ selected = true then s.settle k (arm d) else .refused .armNotSelected

/-- R111, word 0x0B5. -/
def execRxSeekSync1Hit (k : Nat) (s : State) : Host.Outcome State Fault Refusal :=
  s.onArm k .seekSync1 true fun d => .took d.seekSync1Hit

/-- R111, the row behind word 0x0B5. -/
def execRxSeekSync1Other (k : Nat) (x : Byte) (s : State) : Host.Outcome State Fault Refusal :=
  s.onArm k .seekSync1 (x != sync1) fun d => .took d.seekSync1Other

/-- R112, word 0x162. -/
def execRxSeekSync2Hit (k : Nat) (s : State) : Host.Outcome State Fault Refusal :=
  s.onArm k .seekSync2 true fun d => .took d.seekSync2Hit

/-- R112, word 0x1B5. -/
def execRxSeekSync2Sync1 (k : Nat) (s : State) : Host.Outcome State Fault Refusal :=
  s.onArm k .seekSync2 true fun d => .took d.seekSync2Sync1

/-- R112, the row behind words 0x162 and 0x1B5. -/
def execRxSeekSync2Other (k : Nat) (x : Byte) (s : State) : Host.Outcome State Fault Refusal :=
  s.onArm k .seekSync2 (x != sync2 && x != sync1) fun d => .took d.seekSync2Other

/-- R113. -/
def execRxReadClass (k : Nat) (x : Byte) (s : State) : Host.Outcome State Fault Refusal :=
  s.onArm k .readClass true fun d => .took (d.readClass x)

/-- R114. -/
def execRxReadId (k : Nat) (x : Byte) (s : State) : Host.Outcome State Fault Refusal :=
  s.onArm k .readId true fun d => .took (d.readId x)

/-- R115. -/
def execRxReadLenLo (k : Nat) (x : Byte) (s : State) : Host.Outcome State Fault Refusal :=
  s.onArm k .readLenLo true fun d => .took (d.readLenLo x)

/-- R116. -/
def execRxReadLenHi (k : Nat) (x : Byte) (s : State) : Host.Outcome State Fault Refusal :=
  s.onArm k .readLenHi true fun d => d.readLenHi x

/-- R117. -/
def execRxReadPayload (k : Nat) (x : Byte) (s : State) : Host.Outcome State Fault Refusal :=
  s.onArm k .readPayload true fun d => d.readPayload x

/-- R118. -/
def execRxReadCkA (k : Nat) (x : Byte) (s : State) : Host.Outcome State Fault Refusal :=
  s.onArm k .readCkA true fun d => .took (d.readCkA x)

/-- R119. -/
def execRxReadCkB (k : Nat) (x : Byte) (s : State) : Host.Outcome State Fault Refusal :=
  s.onArm k .readCkB true fun d => d.readCkB x

end Sys2Proof.Machine
end

