-- ==== Sys2Proof/Machine/TxArms.lean ====
section
/-! DEFINITION. The table's `TXBYTE` rows: the arms of `ENC.NEXT`, each by itself (spec/41_frame_encoder.md R94 to R104). An arm
runs where `enc.stage` selects it and, like `ENC.NEXT`, returns an optional byte. -/

namespace Sys2Proof.Machine

/-- Run an arm of stage `stage`. -/
def State.onTake (s : State) (stage : EncStage) (arm : Enc → TxOutcome) : Host.Outcome State Fault Refusal :=
  if s.enc.stage = stage then s.handOut (arm s.enc) else .refused .armNotSelected

/-- R104. -/
def execTxIdle (s : State) : Host.Outcome State Fault Refusal := s.onTake .idle Enc.takeIdle

/-- R95. -/
def execTxSync1 (s : State) : Host.Outcome State Fault Refusal := s.onTake .sync1 Enc.takeSync1

/-- R96. -/
def execTxSync2 (s : State) : Host.Outcome State Fault Refusal := s.onTake .sync2 Enc.takeSync2

/-- R97. -/
def execTxClass (s : State) : Host.Outcome State Fault Refusal := s.onTake .cls Enc.takeClass

/-- R98. -/
def execTxId (s : State) : Host.Outcome State Fault Refusal := s.onTake .id Enc.takeId

/-- R99. -/
def execTxLenLo (s : State) : Host.Outcome State Fault Refusal := s.onTake .lenLo Enc.takeLenLo

/-- R100. -/
def execTxLenHi (s : State) : Host.Outcome State Fault Refusal := s.onTake .lenHi Enc.takeLenHi

/-- R101. -/
def execTxPayload (s : State) : Host.Outcome State Fault Refusal := s.onTake .payload Enc.takePayload

/-- R102. -/
def execTxCkA (s : State) : Host.Outcome State Fault Refusal := s.onTake .ckA Enc.takeCkA

/-- R103. -/
def execTxCkB (s : State) : Host.Outcome State Fault Refusal := s.onTake .ckB Enc.takeCkB

end Sys2Proof.Machine
end

