-- ==== Sys2Proof/Machine/Wire.lean ====
section
/-! DEFINITION. The table's `FRAME` row: a frame on the byte stream (spec/30_encoding.md R57). The row names a layout and no
operation of R62; the block's one act on such bytes is to consume them, so a frame that arrives whole on the RX stream of a
Decoder is consumed as R109 to R119 say (DEDUCED, log entry 10). -/

namespace Sys2Proof.Machine

/-- R57, R109. -/
def execFrame (k : Nat) (cls id : Byte) (payload : List Byte) (ckA ckB : Byte) (s : State) :
    Host.Outcome State Fault Refusal :=
  s.onDec k fun d => s.settle k (d.feed (frameBytes cls id payload ckA ckB))

end Sys2Proof.Machine
end

