-- ==== Sys2Proof/Machine/Dispatch.lean ====
section
/-! DEFINITION. One arm for each constructor of `Instr`, each a direct call of its meaning. -/

namespace Sys2Proof.Machine

def exec (i : Instr) (s : State) : Host.Outcome State Fault Refusal :=
  match i with
  -- the Checksum Engine
  | .ckCompute data => Sys2Proof.Machine.execCkCompute data s
  | .ckVerify data ea eb => Sys2Proof.Machine.execCkVerify data ea eb s
  | .ckClear => Sys2Proof.Machine.execCkClear s
  | .ckUpdate x => Sys2Proof.Machine.execCkUpdate x s
  | .ckRead => Sys2Proof.Machine.execCkRead s
  | .ckMatch ea eb => Sys2Proof.Machine.execCkMatch ea eb s
  -- the Encoder
  | .encEncode cls id payload => Sys2Proof.Machine.execEncEncode cls id payload s
  | .encStart cls id payload => Sys2Proof.Machine.execEncStart cls id payload s
  | .encNext => Sys2Proof.Machine.execEncNext s
  -- the Decoder
  | .decReset k => Sys2Proof.Machine.execDecReset k s
  | .decFeed k bytes => Sys2Proof.Machine.execDecFeed k bytes s
  | .decStep k x => Sys2Proof.Machine.execDecStep k x s
  | .decPoll k => Sys2Proof.Machine.execDecPoll k s
  -- the arms of DEC.STEP
  | .rxSeekSync1Hit k => Sys2Proof.Machine.execRxSeekSync1Hit k s
  | .rxSeekSync1Other k x => Sys2Proof.Machine.execRxSeekSync1Other k x s
  | .rxSeekSync2Hit k => Sys2Proof.Machine.execRxSeekSync2Hit k s
  | .rxSeekSync2Sync1 k => Sys2Proof.Machine.execRxSeekSync2Sync1 k s
  | .rxSeekSync2Other k x => Sys2Proof.Machine.execRxSeekSync2Other k x s
  | .rxReadClass k x => Sys2Proof.Machine.execRxReadClass k x s
  | .rxReadId k x => Sys2Proof.Machine.execRxReadId k x s
  | .rxReadLenLo k x => Sys2Proof.Machine.execRxReadLenLo k x s
  | .rxReadLenHi k x => Sys2Proof.Machine.execRxReadLenHi k x s
  | .rxReadPayload k x => Sys2Proof.Machine.execRxReadPayload k x s
  | .rxReadCkA k x => Sys2Proof.Machine.execRxReadCkA k x s
  | .rxReadCkB k x => Sys2Proof.Machine.execRxReadCkB k x s
  -- the arms of ENC.NEXT
  | .txIdle => Sys2Proof.Machine.execTxIdle s
  | .txSync1 => Sys2Proof.Machine.execTxSync1 s
  | .txSync2 => Sys2Proof.Machine.execTxSync2 s
  | .txClass => Sys2Proof.Machine.execTxClass s
  | .txId => Sys2Proof.Machine.execTxId s
  | .txLenLo => Sys2Proof.Machine.execTxLenLo s
  | .txLenHi => Sys2Proof.Machine.execTxLenHi s
  | .txPayload => Sys2Proof.Machine.execTxPayload s
  | .txCkA => Sys2Proof.Machine.execTxCkA s
  | .txCkB => Sys2Proof.Machine.execTxCkB s
  -- a frame on the byte stream
  | .frame k cls id payload ckA ckB => Sys2Proof.Machine.execFrame k cls id payload ckA ckB s

end Sys2Proof.Machine
end

