-- ==== Sys2Proof/Machine/Step.lean ====
section
/-! DEFINITION. One step: the next thing the caller has presented, as one atomic operation (spec/20_memory.md R50). -/

namespace Sys2Proof.Machine

/-- Nothing presented: "An instance that is not given operations does nothing and keeps its state" (R168). Otherwise the
request is taken, decoded and executed. -/
def step (s : State) : Host.Outcome State Fault Refusal :=
  match s.requests with
  | [] => .next s
  | r :: rest =>
    match fetch s r with
    | .error why => .refused why
    | .ok sel =>
      match decode sel with
      | .error why => .refused (.undecodable why)
      | .ok i => exec i { s with requests := rest }

/-- `s` with a word of the opcode table presented next (log entry 9). -/
def State.withFetchWord (s : State) (nbits w : Nat) : State := s.presentWord nbits w

end Sys2Proof.Machine
end

