-- ==== Sys2Proof/Safety.lean ====
section
/-! DEFINITION. What holds of every state a run from a well-formed block reaches: the Encoder's invariants (spec/10_state.md
R17), the Decoder's (R25, R26, R28, R30) and a queued frame's (R31). R17 and R28 list what is so; two clauses are added that make the
lists inductive and that other rules state: `enc.index` is 0 before stage `Payload` (R93) and `enc.length` after it (R101), and a
payload being read stays within `MAX_PAYLOAD` (R25, R116); log entry 21. -/

namespace Sys2Proof.Machine

/-! ## The payload buffers as memory -/

/-- The canonical form of a payload buffer: it lists its first bytes in index order, none beyond its capacity (R39). -/
def Memory.wf (capacity : Nat) (buf : List Byte) : Bool := decide (buf.length ≤ capacity)

/-! ## The Encoder (R17) -/

/-- `[enc.class, enc.id, lo8(enc.length), hi8(enc.length)]`. -/
def Enc.header (e : Enc) : List Byte := [e.cls, e.id, lo8 e.length, hi8 e.length]

/-- The bytes of the checksum domain handed out so far (R17 (d)). -/
def Enc.emitted (e : Enc) : List Byte :=
  match e.stage with
  | .idle | .sync1 | .sync2 | .cls => []
  | .id => [e.cls]
  | .lenLo => [e.cls, e.id]
  | .lenHi => [e.cls, e.id, lo8 e.length]
  | .payload => e.header ++ e.payload.take e.index.toNat
  | .ckA | .ckB => e.header ++ e.payload

/-- Where `enc.index` stands in each stage (R17 (b), (c); R93, R101). -/
def Enc.indexWf (e : Enc) : Bool :=
  match e.stage with
  | .payload => decide (e.index.toNat < e.length.toNat)
  | .ckA | .ckB => decide (e.index = e.length)
  | _ => decide (e.index = 0#16)

def Enc.wf (e : Enc) : Bool :=
  if e.stage = .idle then decide (e = Enc.reset)
  else decide (e.payload.length = e.length.toNat) && e.indexWf && decide ((e.a, e.b) = fletcher e.emitted)

/-! ## The Decoder (R25, R26, R28) -/

/-- The bytes of the checksum domain consumed so far for the frame being parsed (R28). -/
def Dec.consumed (d : Dec) : List Byte :=
  match d.stage with
  | .seekSync1 | .seekSync2 | .readClass => []
  | .readId => [d.cls]
  | .readLenLo => [d.cls, d.id]
  | .readLenHi => [d.cls, d.id, lo8 d.length]
  | .readPayload | .readCkA | .readCkB => [d.cls, d.id, lo8 d.length, hi8 d.length] ++ d.payload

/-- "a field not listed holds its canonical value" (R28), and the bounds on the payload (R25, R28). -/
def Dec.fieldsWf (d : Dec) : Bool :=
  match d.stage with
  | .seekSync1 | .seekSync2 | .readClass =>
    decide (d.cls = 0#8 ∧ d.id = 0#8 ∧ d.length = 0#16 ∧ d.payload = [] ∧ d.rxCkA = 0#8)
  | .readId => decide (d.id = 0#8 ∧ d.length = 0#16 ∧ d.payload = [] ∧ d.rxCkA = 0#8)
  | .readLenLo => decide (d.length = 0#16 ∧ d.payload = [] ∧ d.rxCkA = 0#8)
  | .readLenHi => decide (d.length.toNat < 256 ∧ d.payload = [] ∧ d.rxCkA = 0#8)
  | .readPayload =>
    decide (d.payload.length < d.length.toNat ∧ d.length.toNat ≤ bufferCapacity d.params ∧ d.rxCkA = 0#8)
  | .readCkA =>
    decide (d.payload.length = d.length.toNat ∧ d.length.toNat ≤ bufferCapacity d.params ∧ d.rxCkA = 0#8)
  | .readCkB => decide (d.payload.length = d.length.toNat ∧ d.length.toNat ≤ bufferCapacity d.params)

/-- A `Frame`'s invariant (R31): its checksum is the one of its own fields, its payload fits. -/
def Frame.wf (f : Frame) : Bool :=
  decide (f.payload.length ≤ 65535) &&
    decide (f.checksum = fletcher (frameDomain f.messageClass f.messageId f.payload))

/-- What a Decoder queues: frames that verify, and its two error kinds (R148). `PayloadTooLarge` "Exists only when
`MAX_PAYLOAD` is a number", and its length exceeds it (R152). -/
def Result.wf (p : DecoderParams) : Result → Bool
  | .frame f => f.wf
  | .error (.checksumMismatch _ _) => true
  | .error (.payloadTooLarge _ _ n) => exceedsMax p n
  | .error .oversizedPayload => false

/-- The queue holds well-formed results, no more than its capacity (R30). -/
def Dec.queueWf (d : Dec) : Bool :=
  d.results.all (Result.wf d.params) &&
    match d.params.queueCap with
    | none => true
    | some c => decide (d.results.length ≤ c)

def Dec.wf (d : Dec) : Bool :=
  d.params.wf && d.fieldsWf && decide ((d.a, d.b) = fletcher d.consumed) && d.queueWf

/-! ## The block -/

/-- The invariant of the block. The Checksum Engine's registers, what the caller presents and what has been returned may be
anything. -/
def State.Inv (s : State) : Prop := s.enc.wf = true ∧ s.decs.all Dec.wf = true

/-- The parse state of a Decoder is the canonical idle state (R29). "`dec.results` is not part of the canonical idle
state". -/
def Dec.isIdle (d : Dec) : Prop := d = { Dec.reset d.params with results := d.results }

end Sys2Proof.Machine
end

