-- ==== Sys2Proof/Certificates/Slice0/Obligations.lean ====
section
/-! DEFINITION. The statements for the provers. First the few words they are stated in (namespace `Claim`), written from the
spec and over plain numbers where the spec's own words are; then one `def Obligations.<Name> : Prop` each.

An answer is added at the end of `State.answers` by every operation (the model's own field, log entry 6); `(s.setDec k d).answer v` is `s` with Decoder `k` replaced by
`d` and the answer `v` added, and nothing else changed, so a conclusion of that form is also the operation's frame. -/

namespace Sys2Proof.Claim

open Sys2Proof.Machine

/-- The loop of R76, over numbers: `a <- (a + x) mod 256 ; b <- (b + a) mod 256`. -/
def loop : Nat × Nat → List Byte → Nat × Nat
  | ab, [] => ab
  | (a, b), x :: rest => loop ((a + x.toNat) % 256, (b + (a + x.toNat) % 256) % 256) rest

/-- `n*d[0] + (n-1)*d[1] + ... + 1*d[n-1]` (R85). -/
def weightedSum : List Byte → Nat
  | [] => 0
  | x :: rest => (rest.length + 1) * x.toNat + weightedSum rest

/-- The operations of a list in order, stopping at the first that has no next state. -/
def execAll : List Instr → State → Host.Outcome State Fault Refusal
  | [], s => .next s
  | i :: rest, s =>
    match exec i s with
    | .next t => execAll rest t
    | .fault r => .fault r
    | .refused r => .refused r

/-- The canonical idle state (R29) with the parameters `p` and the queue `q`. -/
def idleDec (p : DecoderParams) (q : List Result) : Dec :=
  { stage := .seekSync1, cls := 0#8, id := 0#8, length := 0#16, payload := [], a := 0#8, b := 0#8,
    rxCkA := 0#8, results := q, params := p }

/-- The reset values of R15. -/
def idleEnc : Enc :=
  { stage := .idle, cls := 0#8, id := 0#8, length := 0#16, payload := [], index := 0#16, a := 0#8, b := 0#8 }

/-- `(dec.a, dec.b) <- ck_step((dec.a, dec.b), x)` (R77). -/
def summed (d : Dec) (x : Byte) : Dec := { d with a := d.a + x, b := d.b + (d.a + x) }

/-- `(enc.a, enc.b) <- ck_step((enc.a, enc.b), v)` (R77). -/
def summedEnc (e : Enc) (v : Byte) : Enc := { e with a := e.a + v, b := e.b + (e.a + v) }

/-- The arm `i` and `DEC.STEP x` both turn Decoder `k` into `d`, return nothing and change nothing else. -/
def Consumes (s : State) (k : Nat) (i : Instr) (x : Byte) (d : Dec) : Prop :=
  exec i s = .next ((s.setDec k d).answer .done) ∧
    exec (.decStep k x) s = .next ((s.setDec k d).answer .done)

/-- The arm `i` and `ENC.NEXT` both turn the Encoder into `e`, return `v` and change nothing else. -/
def HandsOut (s : State) (i : Instr) (v : Option Byte) (e : Enc) : Prop :=
  exec i s = .next ({ s with enc := e }.answer (.byte v)) ∧
    exec .encNext s = .next ({ s with enc := e }.answer (.byte v))

/-- The queue has room for `n` more results, whatever its capacity (R181). -/
def Room (d : Dec) (n : Nat) : Prop := ∀ c, d.params.queueCap = some c → d.results.length + n ≤ c

/-- The queue of `d` is within the capacity `p` gives (R30). -/
def Fits (p : DecoderParams) (d : Dec) : Prop := ∀ c, p.queueCap = some c → d.results.length ≤ c

/-- `d` with an unbounded queue (R7). -/
def unbounded (d : Dec) : Dec := { d with params := { d.params with queueCap := none } }

/-- `MAX_PAYLOAD` is a number below `n` (R116). -/
def Exceeds (p : DecoderParams) (n : Nat) : Prop := ∃ m, p.maxPayload = some m ∧ m.toNat < n

/-- No byte 0xB5 is immediately followed by 0x62 (R124, R128). -/
def NoSyncPair (bytes : List Byte) : Prop :=
  ∀ i, ¬(bytes[i]? = some 0xB5#8 ∧ bytes[i + 1]? = some 0x62#8)

/-- The frame of R57 for a payload of length `L`, its length bytes written as numbers. -/
def wire (cls id : Byte) (payload : List Byte) (ckA ckB : Byte) : List Byte :=
  [0xB5#8, 0x62#8, cls, id, BitVec.ofNat 8 payload.length, BitVec.ofNat 8 (payload.length / 256)] ++ payload ++
    [ckA, ckB]

/-- The checksum domain of such a frame (R58). -/
def domain (cls id : Byte) (payload : List Byte) : List Byte :=
  [cls, id, BitVec.ofNat 8 payload.length, BitVec.ofNat 8 (payload.length / 256)] ++ payload

/-- What `ENC.ENCODE` returns for a payload that fits. -/
def encoded (cls id : Byte) (payload : List Byte) : List Byte :=
  wire cls id payload (fletcher (domain cls id payload)).1 (fletcher (domain cls id payload)).2

/-- The Decoder an instruction acts on. -/
def decoderOf : Instr → Option Nat
  | .decReset k | .decFeed k _ | .decStep k _ | .decPoll k => some k
  | .rxSeekSync1Hit k | .rxSeekSync1Other k _ | .rxSeekSync2Hit k | .rxSeekSync2Sync1 k => some k
  | .rxSeekSync2Other k _ | .rxReadClass k _ | .rxReadId k _ | .rxReadLenLo k _ | .rxReadLenHi k _ => some k
  | .rxReadPayload k _ | .rxReadCkA k _ | .rxReadCkB k _ => some k
  | .frame k _ _ _ _ _ => some k
  | _ => none

/-- The operations that write the `ck` registers: "only by `CK.CLEAR` and `CK.UPDATE`" (R14). -/
def writesCk : Instr → Bool
  | .ckClear | .ckUpdate _ => true
  | _ => false

/-- The operations that read or write the `ck` registers (R14). -/
def usesCk : Instr → Bool
  | .ckClear | .ckUpdate _ | .ckRead | .ckMatch _ _ => true
  | _ => false

/-- The operations that read or write the `enc` registers; `ENC.ENCODE` "reads and writes no state" (R15). -/
def usesEnc : Instr → Bool
  | .encStart _ _ _ | .encNext => true
  | .txIdle | .txSync1 | .txSync2 | .txClass | .txId | .txLenLo | .txLenHi | .txPayload | .txCkA | .txCkB => true
  | _ => false

/-- Two operations are presented to different instances: no register of one is a register of the other (R51). -/
def Independent (i j : Instr) : Prop :=
  ¬(usesCk i = true ∧ usesCk j = true) ∧ ¬(usesEnc i = true ∧ usesEnc j = true) ∧
    ∀ k, ¬(decoderOf i = some k ∧ decoderOf j = some k)

end Sys2Proof.Claim

open Sys2Proof Sys2Proof.Machine Sys2Proof.Claim

/-! ## Reset, fetch, decoding -/

/-- R37, R108. What the instances are created with, and what `DEC.RESET` gives back, is the table of R37 (`MAX_PAYLOAD` and
`RESULT_QUEUE_CAP` being "the value given at creation"). -/
def Obligations.ResetGivesTheTableOfValues : Prop :=
  (∀ c : Config, (State.init c).ck = { a := 0#8, b := 0#8 } ∧ (State.init c).enc = idleEnc ∧
    (State.init c).decs = c.decoders.map fun p => idleDec p []) ∧
  (State.reset.ck = { a := 0#8, b := 0#8 } ∧ State.reset.enc = idleEnc ∧
    ∀ d ∈ State.reset.decs, d = idleDec d.params []) ∧
  ∀ (s : State) (k : Nat) (d : Dec), s.decs[k]? = some d →
    exec (.decReset k) s = .next ((s.setDec k (idleDec d.params [])).answer .done)

/-- R33, R50, R168. A step is one presented operation; without one nothing happens. The request queue is the model's own (log
entry 5). -/
def Obligations.StepRunsTheDecodedRequest : Prop :=
  (∀ s : State, s.requests = [] → step s = .next s) ∧
  (∀ (s : State) (r : Request) (rest : List Request) (sel : Selector) (i : Instr), s.requests = r :: rest →
    fetch s r = .ok sel → decode sel = .ok i → i.wellFormed = true →
    step s = exec i { s with requests := rest }) ∧
  (∀ (s : State) (k : Nat) (bytes : List Byte), fetch s (.op k bytes) = .ok (.op k bytes)) ∧
  (∀ (s : State) (k : Nat) (x : Byte) (d : Dec), s.decs[k]? = some d →
    fetch s (.rxByte k x) = .ok (.rxWord k (rxWordOf d.stage x))) ∧
  (∀ s : State, fetch s .txTake = .ok (.txWord s.enc.stage.code)) ∧
  (∀ (s : State) (k : Nat) (bytes : List Byte), fetch s (.frame k bytes) = .ok (.frame k bytes))

/-- R57, R63, R64, R65. Words written out from the spec's tables decode to the rows they stand for. -/
def Obligations.WordsOfTheTablesDecode : Prop :=
  decodeTableWord 8 0x10 = some (.ckCompute []) ∧ decodeTableWord 8 0x22 = some .encNext ∧
  decodeTableWord 8 0x33 = some (.decPoll 0) ∧
  decodeTableWord 16 0x0B5 = some (.rxSeekSync1Hit 0) ∧ decodeTableWord 16 0x062 = some (.rxSeekSync1Other 0 0x62#8) ∧
  decodeTableWord 16 0x1B5 = some (.rxSeekSync2Sync1 0) ∧ decodeTableWord 16 0x835 = some (.rxReadCkB 0 0x35#8) ∧
  decodeTableWord 8 0x7 = some .txPayload ∧
  decodeTableWord 48 0xB56206010000 = some (.frame 0 0x06#8 0x01#8 [] 0#8 0#8) ∧
  decode (.frame 0 [0xB5#8, 0x62#8, 0x0A#8, 0x04#8, 0x01#8, 0x00#8, 0x7F#8, 0x8E#8, 0xC4#8]) =
    .ok (.frame 0 0x0A#8 0x04#8 [0x7F#8] 0x8E#8 0xC4#8)

/-- No bit of an encoding is dropped: every well-formed instruction, with every operand, is read back. The operand layout
of an operation is the model's own (log entry 3). -/
def Obligations.DecodeReadsBackEveryEncodedInstruction : Prop :=
  ∀ i : Instr, i.wellFormed = true → decode (encode i) = .ok i

/-- Each word has one meaning: what decodes is well formed, and encodes to the word it was read from. -/
def Obligations.EncodeGivesBackEveryDecodedWord : Prop :=
  ∀ (sel : Selector) (i : Instr), decode sel = .ok i → i.wellFormed = true ∧ encode i = sel

/-- R64: "rows in priority order (the first matching row wins)", over the table's `mask` and `match` columns. -/
def Obligations.FirstMatchingRowIsTheArmDecoded : Prop :=
  ∀ (k : Nat) (w : BitVec 12) (i : Instr), decode (.rxWord k w) = .ok i ↔ firstRxRow k w = some i

/-- R149. The codes of the block's result kinds and error kinds. -/
def Obligations.ResultAndErrorKindsHaveTheirCodes : Prop :=
  resultKind none = 0 ∧ (∀ f, resultKind (some (.frame f)) = 1) ∧ (∀ e, resultKind (some (.error e)) = 2) ∧
  BlockError.oversizedPayload.code = 1 ∧ (∀ cls id, (BlockError.checksumMismatch cls id).code = 2) ∧
  ∀ cls id n, (BlockError.payloadTooLarge cls id n).code = 3

/-- R110: "Exactly one arm applies to every `(dec.stage, x)`"; R94. The arm a word selects is the one `DEC.STEP`, or `ENC.NEXT`,
performs. -/
def Obligations.StepAndNextPerformTheSelectedArm : Prop :=
  (∀ (s : State) (k : Nat) (d : Dec) (x : Byte), s.decs[k]? = some d →
    ∃ i, decode (.rxWord k (rxWordOf d.stage x)) = .ok i ∧ exec (.decStep k x) s = exec i s) ∧
  (∀ s : State, ∃ i, decode (.txWord s.enc.stage.code) = .ok i ∧ exec .encNext s = exec i s)

/-- R67. No stage has a reserved code; a reserved stage code decodes to nothing; an `op` code outside R63 is refused. -/
def Obligations.ReservedCodesAreRefused : Prop :=
  (∀ st : DecStage, st.code.toNat ≤ 8) ∧ (∀ st : EncStage, st.code.toNat ≤ 9) ∧
  (∀ (k : Nat) (w : BitVec 12), 9 * 256 ≤ w.toNat → decode (.rxWord k w) = .error (.reservedDecStage w)) ∧
  (∀ w : BitVec 4, 10 ≤ w.toNat → decode (.txWord w) = .error (.reservedEncStage w)) ∧
  ∀ (s : State) (k : Nat) (op : Byte) (args : List Byte) (rest : List Request),
    s.requests = .op k (op :: args) :: rest →
    op.toNat ∉ [0x10, 0x11, 0x12, 0x13, 0x14, 0x15, 0x20, 0x21, 0x22, 0x30, 0x31, 0x32, 0x33] →
    step s = .refused (.undecodable (.reservedOp op))

/-- A word of the table, presented, is what the next step runs, and the state it runs on is said for each kind of word: for an
operation or a frame the state as it was; for an arm of the Decoder the state with Decoder 0 put in the word's stage, for an arm of the
Encoder with the Encoder put in it. Nothing is put anywhere where the stage is the word's already; else a Decoder keeps its queue and
its parameters, and a well-formed one stays so, but for stage `ReadPayload` under a limit of 0, in which no Decoder ever is. All of it is
the model's own (log entry 9). -/
def Obligations.PresentedWordRunsNext : Prop :=
  (∀ (s : State) (nbits w : Nat) (i : Instr), decodeTableWord nbits w = some i →
    ∃ sel, tableSelector nbits w = some sel ∧ decode sel = .ok i ∧
      ((∃ k bytes, (sel = .op k bytes ∨ sel = .frame k bytes) ∧ step (s.withFetchWord nbits w) = exec i s) ∨
       (∃ st x, sel = .rxWord 0 (rxWordOf st x) ∧
         step (s.withFetchWord nbits w) = exec i { s with decs := s.decs.modify 0 fun d => d.atStage st }) ∨
       (∃ st : EncStage, sel = .txWord st.code ∧
         step (s.withFetchWord nbits w) = exec i { s with enc := s.enc.atStage st }))) ∧
  (∀ (d : Dec) (st : DecStage), (d.stage = st → d.atStage st = d) ∧ (d.atStage st).stage = st ∧
    (d.atStage st).results = d.results ∧ (d.atStage st).params = d.params ∧
    (d.wf = true → (st = .readPayload → ¬Exceeds d.params 1) → (d.atStage st).wf = true)) ∧
  ∀ (e : Enc) (st : EncStage), (e.stage = st → e.atStage st = e) ∧ (e.atStage st).stage = st ∧
    (e.wf = true → (e.atStage st).wf = true)

/-! ## The Checksum Engine -/

/-- R76, R78, R79. `CK.COMPUTE` and `CK.VERIFY` return what the loop gives; nothing else changes. -/
def Obligations.ComputeAndVerifyFollowTheLoop : Prop :=
  (∀ (s : State) (data : List Byte), ∃ a b, exec (.ckCompute data) s = .next (s.answer (.pair a b)) ∧
    (a.toNat, b.toNat) = loop (0, 0) data) ∧
  (∀ (s : State) (data : List Byte) (ea eb : Byte), ∃ v, exec (.ckVerify data ea eb) s = .next (s.answer (.truth v)) ∧
    (v = true ↔ (ea.toNat, eb.toNat) = loop (0, 0) data))

/-- R80, R81, R82, R83. The streaming operations. -/
def Obligations.StreamingChecksumOperations : Prop :=
  ∀ s : State,
    exec .ckClear s = .next ({ s with ck := { a := 0#8, b := 0#8 } }.answer .done) ∧
    (∀ x : Byte, ∃ a b, exec (.ckUpdate x) s = .next ({ s with ck := { a := a, b := b } }.answer .done) ∧
      a.toNat = (s.ck.a.toNat + x.toNat) % 256 ∧
      b.toNat = (s.ck.b.toNat + (s.ck.a.toNat + x.toNat) % 256) % 256) ∧
    exec .ckRead s = .next (s.answer (.pair s.ck.a s.ck.b)) ∧
    ∀ ea eb : Byte, ∃ v, exec (.ckMatch ea eb) s = .next (s.answer (.truth v)) ∧
      (v = true ↔ s.ck.a = ea ∧ s.ck.b = eb)

/-- R85. -/
def Obligations.ChecksumClosedForm : Prop :=
  (∀ d : List Byte, (fletcher d).1.toNat = (d.map BitVec.toNat).sum % 256 ∧
    (fletcher d).2.toNat = weightedSum d % 256) ∧
  (∀ d : List Byte, fletcher (0#8 :: d) = fletcher d) ∧
  (∀ d : List Byte, fletcher (d ++ [0#8]) = ((fletcher d).1, (fletcher d).2 + (fletcher d).1)) ∧
  ∀ v : Byte, fletcher (List.replicate 256 v) = (0#8, 128#8 * v)

/-- R71, R83, R86. Clearing, one update for each byte and then reading, or matching, returns what `CK.COMPUTE`, or `CK.VERIFY`,
returns. -/
def Obligations.StreamedChecksumEqualsWholeSequence : Prop :=
  ∀ (s : State) (data : List Byte) (ea eb : Byte), ∃ t u a b v,
    execAll (.ckClear :: data.map .ckUpdate ++ [.ckRead]) s = .next t ∧
    execAll (.ckClear :: data.map .ckUpdate ++ [.ckMatch ea eb]) s = .next u ∧
    exec (.ckCompute data) s = .next (s.answer (.pair a b)) ∧
    exec (.ckVerify data ea eb) s = .next (s.answer (.truth v)) ∧
    t.answers.getLast? = some (.pair a b) ∧ u.answers.getLast? = some (.truth v) ∧
    t.ck = { a := a, b := b } ∧ t.enc = s.enc ∧ t.decs = s.decs

/-- R87. A change in one position is always detected; a change in two positions `i < j` cancels exactly when
`δi + δj = 0` and `(j - i) * δi = 0` modulo 256, so never when `j - i` is odd. -/
def Obligations.ChecksumDetectsChanges : Prop :=
  (∀ (pre post : List Byte) (x y : Byte), x ≠ y →
    (fletcher (pre ++ x :: post)).1 ≠ (fletcher (pre ++ y :: post)).1) ∧
  (∀ (pre mid post : List Byte) (x y x' y' : Byte),
    fletcher (pre ++ x :: mid ++ y :: post) = fletcher (pre ++ x' :: mid ++ y' :: post) ↔
      (x' - x) + (y' - y) = 0#8 ∧ BitVec.ofNat 8 (mid.length + 1) * (x' - x) = 0#8) ∧
  ∀ (pre mid post : List Byte) (x y x' y' : Byte), x ≠ x' → mid.length % 2 = 0 →
    fletcher (pre ++ x :: mid ++ y :: post) ≠ fletcher (pre ++ x' :: mid ++ y' :: post)

/-! ## The Encoder -/

/-- R89, R90. Every index of the output of `ENC.ENCODE`; a payload over 65535 bytes gives the error and no byte. Nothing else
changes. -/
def Obligations.EncodeOutputByIndex : Prop :=
  ∀ (s : State) (cls id : Byte) (p : List Byte),
    (p.length ≤ 65535 → ∃ out ckA ckB, exec (.encEncode cls id p) s = .next (s.answer (.bytes out)) ∧
      out.length = p.length + 8 ∧ out[0]? = some 0xB5#8 ∧ out[1]? = some 0x62#8 ∧ out[2]? = some cls ∧
      out[3]? = some id ∧ out[4]? = some (BitVec.ofNat 8 p.length) ∧
      out[5]? = some (BitVec.ofNat 8 (p.length / 256)) ∧ (∀ i, i < p.length → out[6 + i]? = p[i]?) ∧
      out[6 + p.length]? = some ckA ∧ out[7 + p.length]? = some ckB ∧
      (ckA.toNat, ckB.toNat) = loop (0, 0) ((out.drop 2).take (4 + p.length))) ∧
    (65535 < p.length → exec (.encEncode cls id p) s = .next (s.answer (.error .oversizedPayload)))

/-- R93, R182. `ENC.START` latches the request; a payload over 65535 bytes is the error, with `enc` unchanged; in any stage but
`Idle` it is turned away with nothing changed (that the run goes on and the caller is told so is log entry 7's). -/
def Obligations.StartLatchesOrIsTurnedAway : Prop :=
  ∀ (s : State) (cls id : Byte) (p : List Byte),
    (s.enc.stage = .idle → p.length ≤ 65535 → ∃ n : Half, n.toNat = p.length ∧
      exec (.encStart cls id p) s = .next ({ s with
        enc := { stage := .sync1, cls := cls, id := id, length := n, payload := p, index := 0#16,
                 a := 0#8, b := 0#8 } }.answer .ok)) ∧
    (s.enc.stage = .idle → 65535 < p.length →
      exec (.encStart cls id p) s = .next (s.answer (.error .oversizedPayload))) ∧
    (s.enc.stage ≠ .idle → exec (.encStart cls id p) s = .next (s.answer .refusedBusy))

/-- R94 to R104. Each stage of the byte-serial Encoder: the byte returned, the checksum update and the next stage, by
`ENC.NEXT` and by the stage's own row. `v` in `Payload` is the byte at `enc.index`, which R17 says is there. -/
def Obligations.EncoderStagesHandOutTheFrame : Prop :=
  ∀ s : State,
    (s.enc.stage = .idle → HandsOut s .txIdle none s.enc) ∧
    (s.enc.stage = .sync1 → HandsOut s .txSync1 (some 0xB5#8) { s.enc with stage := .sync2 }) ∧
    (s.enc.stage = .sync2 → HandsOut s .txSync2 (some 0x62#8) { s.enc with stage := .cls }) ∧
    (s.enc.stage = .cls →
      HandsOut s .txClass (some s.enc.cls) { summedEnc s.enc s.enc.cls with stage := .id }) ∧
    (s.enc.stage = .id →
      HandsOut s .txId (some s.enc.id) { summedEnc s.enc s.enc.id with stage := .lenLo }) ∧
    (∀ lo : Byte, s.enc.stage = .lenLo → lo.toNat = s.enc.length.toNat % 256 →
      HandsOut s .txLenLo (some lo) { summedEnc s.enc lo with stage := .lenHi }) ∧
    (∀ hi : Byte, s.enc.stage = .lenHi → hi.toNat = s.enc.length.toNat / 256 →
      HandsOut s .txLenHi (some hi)
        { summedEnc s.enc hi with stage := if s.enc.length = 0#16 then .ckA else .payload }) ∧
    (∀ (v : Byte) (next : Half), s.enc.stage = .payload → s.enc.payload[s.enc.index.toNat]? = some v →
      next.toNat = s.enc.index.toNat + 1 →
      HandsOut s .txPayload (some v)
        { summedEnc s.enc v with index := next, stage := if next = s.enc.length then .ckA else .payload }) ∧
    (s.enc.stage = .ckA → HandsOut s .txCkA (some s.enc.a) { s.enc with stage := .ckB }) ∧
    (s.enc.stage = .ckB → HandsOut s .txCkB (some s.enc.b) idleEnc)

/-- R105. The byte-serial form spreads `ENC.ENCODE` over steps and adds no behaviour. -/
def Obligations.SerialEncoderRefinesEncode : Prop :=
  ∀ (s : State) (cls id : Byte) (p : List Byte), s.enc.stage = .idle →
    (p.length ≤ 65535 → ∃ out t,
      exec (.encEncode cls id p) s = .next (s.answer (.bytes out)) ∧ out.length = p.length + 8 ∧
      execAll (.encStart cls id p :: List.replicate (p.length + 8 + 1) .encNext) s = .next t ∧
      t.answers = s.answers ++ [.ok] ++ out.map (fun v => .byte (some v)) ++ [.byte none] ∧
      t.enc = idleEnc ∧ t.ck = s.ck ∧ t.decs = s.decs) ∧
    (65535 < p.length →
      exec (.encEncode cls id p) s = .next (s.answer (.error .oversizedPayload)) ∧
      execAll [.encStart cls id p, .encNext] s =
        .next ((s.answer (.error .oversizedPayload)).answer (.byte none)))

/-! ## The Decoder, stage by stage -/

/-- R111, R112. The two seek stages: only `dec.stage` is written, and no result is produced. -/
def Obligations.SeekStagesFindTheSyncPair : Prop :=
  ∀ (s : State) (k : Nat) (d : Dec), s.decs[k]? = some d →
    (d.stage = .seekSync1 →
      Consumes s k (.rxSeekSync1Hit k) 0xB5#8 { d with stage := .seekSync2 } ∧
      ∀ x, x ≠ 0xB5#8 → Consumes s k (.rxSeekSync1Other k x) x d) ∧
    (d.stage = .seekSync2 →
      Consumes s k (.rxSeekSync2Hit k) 0x62#8 { d with stage := .readClass } ∧
      Consumes s k (.rxSeekSync2Sync1 k) 0xB5#8 d ∧
      ∀ x, x ≠ 0x62#8 → x ≠ 0xB5#8 → Consumes s k (.rxSeekSync2Other k x) x { d with stage := .seekSync1 })

/-- R113, R114, R115. The class, id and low length byte: stored, and added to the running checksum. -/
def Obligations.HeaderStagesStoreAndSum : Prop :=
  ∀ (s : State) (k : Nat) (d : Dec) (x : Byte), s.decs[k]? = some d →
    (d.stage = .readClass → Consumes s k (.rxReadClass k x) x { summed d x with cls := x, stage := .readId }) ∧
    (d.stage = .readId → Consumes s k (.rxReadId k x) x { summed d x with id := x, stage := .readLenLo }) ∧
    (∀ n : Half, n.toNat = x.toNat → d.stage = .readLenLo →
      Consumes s k (.rxReadLenLo k x) x { summed d x with length := n, stage := .readLenHi })

/-- R116, R152. The high length byte: `n` is the length the two bytes form. With a limit below `n` the frame is given up with
`PayloadTooLarge` and the Decoder is in the canonical idle state; otherwise the payload follows, or the checksum. -/
def Obligations.LengthStageChecksTheLimit : Prop :=
  ∀ (s : State) (k : Nat) (d : Dec) (x : Byte) (n : Half), s.decs[k]? = some d → d.stage = .readLenHi →
    n.toNat = d.length.toNat + 256 * x.toNat →
    (Exceeds d.params n.toNat → Room d 1 →
      Consumes s k (.rxReadLenHi k x) x
        (idleDec d.params (d.results ++ [.error (.payloadTooLarge d.cls d.id n)]))) ∧
    (¬Exceeds d.params n.toNat → 0 < n.toNat →
      Consumes s k (.rxReadLenHi k x) x { summed d x with length := n, stage := .readPayload }) ∧
    (¬Exceeds d.params n.toNat → n.toNat = 0 →
      Consumes s k (.rxReadLenHi k x) x { summed d x with length := n, stage := .readCkA })

/-- R117, R39. A payload byte is written at index `len(dec.payload)` and at no other; the stage is over when the buffer holds
`dec.length` bytes. -/
def Obligations.PayloadStageAppends : Prop :=
  ∀ (s : State) (k : Nat) (d : Dec) (x : Byte), s.decs[k]? = some d → d.stage = .readPayload →
    d.payload.length < d.length.toNat → ¬Exceeds d.params d.length.toNat →
    ∃ buf, Consumes s k (.rxReadPayload k x) x { summed d x with
        payload := buf
        stage := if d.payload.length + 1 = d.length.toNat then .readCkA else .readPayload } ∧
      buf.length = d.payload.length + 1 ∧ buf[d.payload.length]? = some x ∧
      ∀ i, i < d.payload.length → buf[i]? = d.payload[i]?

/-- R118, R119. The first checksum byte is held; the second decides. Exactly one result, and the canonical idle state, in both
arms. -/
def Obligations.ChecksumStagesJudgeTheFrame : Prop :=
  ∀ (s : State) (k : Nat) (d : Dec) (x : Byte), s.decs[k]? = some d →
    (d.stage = .readCkA → Consumes s k (.rxReadCkA k x) x { d with rxCkA := x, stage := .readCkB }) ∧
    (d.stage = .readCkB → Room d 1 → d.a = d.rxCkA → d.b = x →
      Consumes s k (.rxReadCkB k x) x (idleDec d.params (d.results ++
        [.frame { messageClass := d.cls, messageId := d.id, payload := d.payload, checksum := (d.rxCkA, x) }]))) ∧
    (d.stage = .readCkB → Room d 1 → ¬(d.a = d.rxCkA ∧ d.b = x) →
      Consumes s k (.rxReadCkB k x) x (idleDec d.params (d.results ++ [.error (.checksumMismatch d.cls d.id)])))

/-- R181. A step whose result would not fit the queue changes nothing and its byte is held back; in a chunk the bytes before it
are consumed and the bytes from it on are held back (the chunk's reading is log entry 8's). -/
def Obligations.FullQueueHoldsBytesBack : Prop :=
  (∀ (s : State) (k : Nat) (d : Dec) (x : Byte), s.decs[k]? = some d → ¬Room d 1 →
    (d.stage = .readCkB ∨
      d.stage = .readLenHi ∧ d.length.toNat < 256 ∧ Exceeds d.params (d.length.toNat + 256 * x.toNat)) →
    exec (.decStep k x) s = .next (s.answer (.heldBack [x])) ∧
    (d.stage = .readCkB → exec (.rxReadCkB k x) s = .next (s.answer (.heldBack [x]))) ∧
    (d.stage = .readLenHi → exec (.rxReadLenHi k x) s = .next (s.answer (.heldBack [x]))) ∧
    ∀ rest, exec (.decFeed k (x :: rest)) s = .next (s.answer (.heldBack (x :: rest)))) ∧
  ∀ (s t : State) (k : Nat) (d e : Dec) (pre rest held : List Byte), s.decs[k]? = some d →
    exec (.decFeed k pre) s = .next ((s.setDec k e).answer .done) →
    exec (.decFeed k rest) (s.setDec k e) = .next (t.answer (.heldBack held)) →
    exec (.decFeed k (pre ++ rest)) s = .next (t.answer (.heldBack held))

/-- R135, R157. From a well-formed Decoder with room for a result, `DEC.STEP` completes, by a transition of the table and with at
most one result. -/
def Obligations.StepTakesAListedTransition : Prop :=
  ∀ (s : State) (k : Nat) (d : Dec) (x : Byte), s.decs[k]? = some d → d.wf = true → Room d 1 →
    ∃ d', exec (.decStep k x) s = .next ((s.setDec k d').answer .done) ∧
      ((d.stage = .seekSync1 ∧ x = 0xB5#8 ∧ d'.stage = .seekSync2 ∧ d'.results = d.results) ∨
       (d.stage = .seekSync1 ∧ x ≠ 0xB5#8 ∧ d'.stage = .seekSync1 ∧ d'.results = d.results) ∨
       (d.stage = .seekSync2 ∧ x = 0x62#8 ∧ d'.stage = .readClass ∧ d'.results = d.results) ∨
       (d.stage = .seekSync2 ∧ x = 0xB5#8 ∧ d'.stage = .seekSync2 ∧ d'.results = d.results) ∨
       (d.stage = .seekSync2 ∧ x ≠ 0x62#8 ∧ x ≠ 0xB5#8 ∧ d'.stage = .seekSync1 ∧ d'.results = d.results) ∨
       (d.stage = .readClass ∧ d'.stage = .readId ∧ d'.results = d.results) ∨
       (d.stage = .readId ∧ d'.stage = .readLenLo ∧ d'.results = d.results) ∨
       (d.stage = .readLenLo ∧ d'.stage = .readLenHi ∧ d'.results = d.results) ∨
       (d.stage = .readLenHi ∧ ∃ n : Half, n.toNat = d.length.toNat + 256 * x.toNat ∧
         (Exceeds d.params n.toNat ∧ d'.stage = .seekSync1 ∧
            d'.results = d.results ++ [.error (.payloadTooLarge d.cls d.id n)] ∨
          ¬Exceeds d.params n.toNat ∧ 0 < n.toNat ∧ d'.stage = .readPayload ∧ d'.results = d.results ∨
          ¬Exceeds d.params n.toNat ∧ n.toNat = 0 ∧ d'.stage = .readCkA ∧ d'.results = d.results)) ∨
       (d.stage = .readPayload ∧ d'.payload.length ≠ d.length.toNat ∧ d'.stage = .readPayload ∧
         d'.results = d.results) ∨
       (d.stage = .readPayload ∧ d'.payload.length = d.length.toNat ∧ d'.stage = .readCkA ∧
         d'.results = d.results) ∨
       (d.stage = .readCkA ∧ d'.stage = .readCkB ∧ d'.results = d.results) ∨
       (d.stage = .readCkB ∧ (d.a, d.b) = (d.rxCkA, x) ∧ d'.stage = .seekSync1 ∧
         ∃ f, d'.results = d.results ++ [.frame f]) ∨
       (d.stage = .readCkB ∧ (d.a, d.b) ≠ (d.rxCkA, x) ∧ d'.stage = .seekSync1 ∧
         d'.results = d.results ++ [.error (.checksumMismatch d.cls d.id)]))

/-! ## The Decoder over time -/

/-- R109. A chunk is consumed whole, leaving `d'`, exactly when its bytes' `DEC.STEP`s in index order are all taken and leave `d'`.
For a well-formed Decoder that is so whenever the results the chunk really produces fit the queue (R181): they are those of the
Decoder with an unbounded queue, which consumes every chunk. -/
def Obligations.FeedIsItsSteps : Prop :=
  (∀ (s : State) (k : Nat) (d d' : Dec) (bytes : List Byte), s.decs[k]? = some d →
    (exec (.decFeed k bytes) s = .next ((s.setDec k d').answer .done) ↔
      execAll (bytes.map (.decStep k)) s =
        .next { s.setDec k d' with answers := s.answers ++ List.replicate bytes.length .done })) ∧
  ∀ (s : State) (k : Nat) (d : Dec) (bytes : List Byte), s.decs[k]? = some d → d.wf = true →
    ∃ e, exec (.decFeed k bytes) (s.setDec k (unbounded d)) = .next ((s.setDec k e).answer .done) ∧
      (Fits d.params e →
        exec (.decFeed k bytes) s = .next ((s.setDec k { e with params := d.params }).answer .done))

/-- R130, R123. For any state and any two sequences: where the first is consumed whole, feeding both at once is feeding the second
from where the first left off, whatever comes of it. Where both at once are consumed whole, so are the pieces, and an empty chunk or a
poll between them changes neither the parse state nor the order of results. -/
def Obligations.ChunkingIsInvisible : Prop :=
  (∀ (s : State) (k : Nat) (d d1 : Dec) (c1 c2 : List Byte), s.decs[k]? = some d →
    exec (.decFeed k c1) s = .next ((s.setDec k d1).answer .done) →
    exec (.decFeed k (c1 ++ c2)) s = exec (.decFeed k c2) (s.setDec k d1)) ∧
  ∀ (s : State) (k : Nat) (d d2 : Dec) (c1 c2 : List Byte), s.decs[k]? = some d →
    exec (.decFeed k (c1 ++ c2)) s = .next ((s.setDec k d2).answer .done) →
    ∃ d1, exec (.decFeed k c1) s = .next ((s.setDec k d1).answer .done) ∧
      execAll [.decFeed k c1, .decFeed k [], .decFeed k c2] s =
        .next ((((s.setDec k d2).answer .done).answer .done).answer .done) ∧
      execAll [.decFeed k c1, .decPoll k, .decFeed k c2] s =
        .next ((((s.setDec k { d2 with results := d2.results.drop (min 1 d1.results.length) }).answer .done).answer
          (.result d1.results.head?)).answer .done)

/-- R122, R156. `DEC.POLL` returns and removes the head of the queue, or returns `none`; no other field changes; the level
`res_avail` says which. "polling `k` times after `k` results were queued returns them in the order queued, and poll number
`k + 1` returns `none`". -/
def Obligations.PollingDrainsInOrder : Prop :=
  ∀ (s : State) (k : Nat) (d : Dec), s.decs[k]? = some d →
    (d.results = [] → exec (.decPoll k) s = .next (s.answer (.result none)) ∧ d.resAvail = false) ∧
    (∀ r rest, d.results = r :: rest →
      exec (.decPoll k) s = .next ((s.setDec k { d with results := rest }).answer (.result (some r))) ∧
      d.resAvail = true) ∧
    execAll (List.replicate (d.results.length + 1) (.decPoll k)) s =
      .next { s.setDec k { d with results := [] } with
        answers := s.answers ++ d.results.map (fun r => .result (some r)) ++ [.result none] }

/-- R124. A stream without a sync pair leaves a Decoder seeking and its queue as it was. -/
def Obligations.NoiseYieldsNothing : Prop :=
  ∀ (s : State) (k : Nat) (p : DecoderParams) (q : List Result) (bytes : List Byte),
    s.decs[k]? = some (idleDec p q) → NoSyncPair bytes →
    ∃ d', exec (.decFeed k bytes) s = .next ((s.setDec k d').answer .done) ∧
      (d' = idleDec p q ∨ d' = { idleDec p q with stage := .seekSync2 })

/-- R57, R119, R132. A frame within the limit, whatever its checksum bytes, consumes exactly its own `8 + N` bytes from the
canonical idle state and leaves that state with one result more: the `Frame` where the checksum is right, else
`ChecksumMismatch`. That the `FRAME` row is, in every state, the arrival of the bytes of such a frame is log entry 10's. -/
def Obligations.WholeFrameGivesOneResult : Prop :=
  (∀ (s : State) (k : Nat) (cls id : Byte) (payload : List Byte) (ckA ckB : Byte),
    exec (.frame k cls id payload ckA ckB) s = exec (.decFeed k (wire cls id payload ckA ckB)) s) ∧
  ∀ (s : State) (k : Nat) (p : DecoderParams) (q : List Result) (cls id : Byte) (payload : List Byte)
    (ckA ckB : Byte), s.decs[k]? = some (idleDec p q) → payload.length ≤ 65535 → ¬Exceeds p payload.length →
    Room (idleDec p q) 1 →
    ∃ r, (r = if (ckA, ckB) = fletcher (domain cls id payload) then
          .frame { messageClass := cls, messageId := id, payload := payload, checksum := (ckA, ckB) }
        else .error (.checksumMismatch cls id)) ∧
      exec (.frame k cls id payload ckA ckB) s = .next ((s.setDec k (idleDec p (q ++ [r]))).answer .done) ∧
      exec (.decFeed k (wire cls id payload ckA ckB)) s = .next ((s.setDec k (idleDec p (q ++ [r]))).answer .done)

/-- R132, R133. A frame over the limit consumes exactly its first six bytes, leaves `PayloadTooLarge` and the canonical idle state,
and every byte after them is scanned from there. -/
def Obligations.OversizedFrameCostsSixBytes : Prop :=
  ∀ (s : State) (k : Nat) (p : DecoderParams) (q : List Result) (cls id : Byte) (n : Half) (rest : List Byte),
    s.decs[k]? = some (idleDec p q) → Exceeds p n.toNat → Room (idleDec p q) 1 →
    exec (.decFeed k ([0xB5#8, 0x62#8, cls, id, BitVec.ofNat 8 n.toNat, BitVec.ofNat 8 (n.toNat / 256)] ++ rest)) s =
      exec (.decFeed k rest) (s.setDec k (idleDec p (q ++ [.error (.payloadTooLarge cls id n)])))

/-- R127. Decoding what `ENC.ENCODE` returns gives the frame that was encoded, with a checksum that verifies; with a limit below
the payload's length, `PayloadTooLarge` and then whatever the scan of the remaining bytes yields. -/
def Obligations.EncodedFrameRoundTrips : Prop :=
  ∀ (s : State) (k : Nat) (p : DecoderParams) (cls id : Byte) (payload : List Byte),
    s.decs[k]? = some (idleDec p []) → p.wf = true → payload.length ≤ 65535 →
    ∃ out ckA ckB, exec (.encEncode cls id payload) s = .next (s.answer (.bytes out)) ∧
      out[6 + payload.length]? = some ckA ∧ out[7 + payload.length]? = some ckB ∧
      exec (.ckVerify ((out.drop 2).take (4 + payload.length)) ckA ckB) s = .next (s.answer (.truth true)) ∧
      (¬Exceeds p payload.length →
        exec (.decFeed k out) s = .next ((s.setDec k (idleDec p [.frame
          { messageClass := cls, messageId := id, payload := payload, checksum := (ckA, ckB) }])).answer .done)) ∧
      (∀ n : Half, n.toNat = payload.length → Exceeds p payload.length →
        exec (.decFeed k out) s =
          exec (.decFeed k (out.drop 6)) (s.setDec k (idleDec p [.error (.payloadTooLarge cls id n)])))

/-- R128. Noise without a sync pair before a frame makes no difference, not even noise that ends in 0xB5. -/
def Obligations.NoiseBeforeAFrameIsInvisible : Prop :=
  ∀ (s : State) (k : Nat) (p : DecoderParams) (q : List Result) (noise : List Byte) (cls id : Byte)
    (payload : List Byte), s.decs[k]? = some (idleDec p q) → NoSyncPair noise → payload.length ≤ 65535 →
    exec (.decFeed k (noise ++ encoded cls id payload)) s = exec (.decFeed k (encoded cls id payload)) s

/-- R129. An encoded frame with one byte changed that is not a sync or length byte gives exactly one `ChecksumMismatch`, with the class
and id as received, and the valid frame after it is decoded. -/
def Obligations.CorruptedFrameIsReportedAndTheNextDecoded : Prop :=
  ∀ (s : State) (k : Nat) (p : DecoderParams) (q : List Result) (cls id cls' id' : Byte)
    (payload payload' : List Byte) (j : Nat) (v old : Byte),
    s.decs[k]? = some (idleDec p q) → Room (idleDec p q) 2 →
    payload.length ≤ 65535 → ¬Exceeds p payload.length → payload'.length ≤ 65535 → ¬Exceeds p payload'.length →
    j ∉ [0, 1, 4, 5] → (encoded cls id payload)[j]? = some old → v ≠ old →
    exec (.decFeed k ((encoded cls id payload).set j v ++ encoded cls' id' payload')) s =
      .next ((s.setDec k (idleDec p (q ++
        [.error (.checksumMismatch (if j = 2 then v else cls) (if j = 3 then v else id)),
         .frame { messageClass := cls', messageId := id', payload := payload',
                  checksum := fletcher (domain cls' id' payload') }]))).answer .done)

/-- R54, R131. Payload bytes are data: what they are makes no difference to the stage, sync bytes among them included; only how
many they are does. -/
def Obligations.PayloadBytesAreNotControl : Prop :=
  ∀ (s : State) (k : Nat) (d : Dec) (c1 c2 : List Byte), s.decs[k]? = some d → d.wf = true → d.stage = .readPayload →
    c1.length = c2.length → d.payload.length + c1.length ≤ d.length.toNat →
    ∃ d1 d2, exec (.decFeed k c1) s = .next ((s.setDec k d1).answer .done) ∧
      exec (.decFeed k c2) s = .next ((s.setDec k d2).answer .done) ∧
      d1.stage = d2.stage ∧ d1.payload = d.payload ++ c1 ∧ d2.payload = d.payload ++ c2 ∧
      d1.results = d.results ∧ d2.results = d.results

/-- R132. "the Decoder always comes back to `SeekSync1` after at most `8 + 65535` bytes from a sync pair": from the stage after the
pair, `6 + 65535` bytes are enough, whatever they are. -/
def Obligations.DecoderReturnsToSeeking : Prop :=
  ∀ (s : State) (k : Nat) (p : DecoderParams) (q : List Result) (bytes : List Byte),
    s.decs[k]? = some { idleDec p q with stage := .readClass } → Room (idleDec p q) 1 → 6 + 65535 ≤ bytes.length →
    ∃ n r, n ≤ 6 + 65535 ∧
      exec (.decFeed k (bytes.take n)) s = .next ((s.setDec k (idleDec p (q ++ [r]))).answer .done)

/-! ## The whole block -/

/-- R14, R15, R51, R175. An operation changes the registers of its own instance only: the `ck` registers are written by `CK.CLEAR` and
`CK.UPDATE` only, the `enc` registers by `ENC.START`, `ENC.NEXT` and its arms only, a Decoder by operations on that Decoder only. That it
adds one answer and presents nothing speaks of the model's own fields (log entries 6 and 5). -/
def Obligations.OperationsChangeTheirOwnInstanceOnly : Prop :=
  ∀ (i : Instr) (s t : State), exec i s = .next t →
    (writesCk i = false → t.ck = s.ck) ∧ (usesEnc i = false → t.enc = s.enc) ∧
    (∀ k, decoderOf i ≠ some k → t.decs[k]? = s.decs[k]?) ∧ t.requests = s.requests ∧
    ∃ v, t.answers = s.answers ++ [v]

/-- R35, R7. No operation adds or removes a Decoder or changes its parameters. -/
def Obligations.ParametersAreFixedForLife : Prop :=
  ∀ (i : Instr) (s t : State), exec i s = .next t → t.decs.map Dec.params = s.decs.map Dec.params

/-- R51. Operations on different instances commute, and each returns what it returns alone. -/
def Obligations.IndependentOperationsCommute : Prop :=
  ∀ (i j : Instr) (s t u : State), Independent i j → exec i s = .next t → exec j t = .next u →
    ∃ t' u' v w, exec j s = .next t' ∧ exec i t' = .next u' ∧ u'.ck = u.ck ∧ u'.enc = u.enc ∧ u'.decs = u.decs ∧
      u.answers = s.answers ++ [v, w] ∧ u'.answers = s.answers ++ [w, v]

/-- R49, R181. Results are appended at the tail in the order produced; only a poll removes one, the oldest, and only a reset removes
more. -/
def Obligations.ResultsAreNeverLostOrReordered : Prop :=
  ∀ (i : Instr) (s t : State) (k : Nat) (d e : Dec), exec i s = .next t → s.decs[k]? = some d → t.decs[k]? = some e →
    (∃ new, e.results = d.results ++ new) ∨ (i = .decPoll k ∧ e.results = d.results.tail) ∨
      (i = .decReset k ∧ e.results = [])

/-- R17, R25, R26, R28, R30, R31. The invariant holds after creation with any well-formed parameters. -/
def Obligations.CreatedBlockMeetsTheInvariant : Prop :=
  State.reset.Inv ∧ ∀ c : Config, c.wf = true → (State.init c).Inv

/-- R17, R25, R26, R28, R30, R31. Every step keeps the invariant: the Encoder's and every Decoder's running checksum is that of the bytes
handed out or consumed so far, the payload counts are in range, unused fields hold their canonical values, and every queued
`Frame` verifies. -/
def Obligations.EveryStepKeepsTheInvariant : Prop :=
  ∀ s t : State, s.Inv → step s = .next t → t.Inv

/-- R6, R110, R154. From a state that meets the invariant no step faults: noise, truncation, bad checksums and long payloads never
stop the block. A step is refused only where what is presented does not decode (R67, log entry 13), or names a Decoder that does not
exist (log entry 14). That the run goes on after a busy `ENC.START` and after a result that meets a full queue, which R182 and R181 call
refused, is log entry 7's and log entry 8's choice. -/
def Obligations.NoOperationStopsAWellFormedBlock : Prop :=
  ∀ s : State, s.Inv →
    (∃ t, step s = .next t) ∨
    ∃ r rest, s.requests = r :: rest ∧
      ((∃ sel why, fetch s r = .ok sel ∧ decode sel = .error why ∧ step s = .refused (.undecodable why)) ∨
       (∃ k, ((∃ x, r = .rxByte k x) ∨ ∃ sel i, fetch s r = .ok sel ∧ decode sel = .ok i ∧ decoderOf i = some k) ∧
         s.decs[k]? = none ∧ step s = .refused (.noSuchDecoder k)))

/-- An arm taken by itself in a stage, or with a byte, that selects another arm is refused; so is any operation on a Decoder that does
not exist (model's names; R110, R94, R135: such a pair "does not occur"). -/
def Obligations.UnselectedArmsAndMissingDecodersAreRefused : Prop :=
  (∀ (s : State) (k : Nat) (d : Dec) (st : DecStage) (x : Byte) (i : Instr), s.decs[k]? = some d → d.stage ≠ st →
    decode (.rxWord k (rxWordOf st x)) = .ok i → exec i s = .refused .armNotSelected) ∧
  (∀ (s : State) (k : Nat) (d : Dec), s.decs[k]? = some d →
    exec (.rxSeekSync1Other k 0xB5#8) s = .refused .armNotSelected ∧
    exec (.rxSeekSync2Other k 0x62#8) s = .refused .armNotSelected ∧
    exec (.rxSeekSync2Other k 0xB5#8) s = .refused .armNotSelected) ∧
  (∀ (s : State) (st : EncStage), s.enc.stage ≠ st → exec (txArm st) s = .refused .armNotSelected) ∧
  ∀ (s : State) (k : Nat) (i : Instr), decoderOf i = some k → s.decs[k]? = none →
    exec i s = .refused (.noSuchDecoder k)
end

