-- ==== Sys2Proof/Laws/Codes.lean ====
section
/-! SUPPORT. The stage codes and the selecting words, read back; the 16-bit length, split and put together. -/

namespace Sys2Proof

@[simp] theorem DecStage.ofCode_code (st : DecStage) : DecStage.ofCode st.code = some st := by cases st <;> rfl

@[simp] theorem EncStage.ofCode_code (st : EncStage) : EncStage.ofCode st.code = some st := by cases st <;> rfl

theorem DecStage.code_of_ofCode {c : BitVec 4} {st : DecStage} (h : DecStage.ofCode c = some st) : st.code = c := by
  revert h
  revert st c
  decide

theorem EncStage.code_of_ofCode {c : BitVec 4} {st : EncStage} (h : EncStage.ofCode c = some st) : st.code = c := by
  revert h
  revert st c
  decide

@[simp] theorem rxWordOf_byte (st : DecStage) (x : Byte) : (rxWordOf st x).extractLsb' 0 8 = x := by
  unfold rxWordOf
  apply BitVec.eq_of_getLsbD_eq
  intro i hi
  rw [BitVec.getLsbD_extractLsb', BitVec.getLsbD_append]
  simp [hi]

@[simp] theorem rxWordOf_stage (st : DecStage) (x : Byte) : (rxWordOf st x).extractLsb' 8 4 = st.code := by
  unfold rxWordOf
  apply BitVec.eq_of_getLsbD_eq
  intro i hi
  rw [BitVec.getLsbD_extractLsb', BitVec.getLsbD_append]
  simp [hi]

/-- A 12-bit word is its two fields. -/
theorem rxWord_fields (w : BitVec 12) : (w.extractLsb' 8 4 ++ w.extractLsb' 0 8 : BitVec (4 + 8)) = w := by
  apply BitVec.eq_of_getLsbD_eq
  intro i hi
  rw [BitVec.getLsbD_append, BitVec.getLsbD_extractLsb', BitVec.getLsbD_extractLsb']
  by_cases h : i < 8
  · simp [h]
  · have h4 : i - 8 < 4 := by omega
    have h8 : 8 + (i - 8) = i := by omega
    simp [h, h4, h8]

theorem lo8_toNat (n : Half) : (lo8 n).toNat = n.toNat % 256 := by simp [lo8]

theorem hi8_toNat (n : Half) : (hi8 n).toNat = n.toNat / 256 := by
  have := n.isLt
  simp [hi8, Nat.shiftRight_eq_div_pow]
  omega

@[simp] theorem le16_lo8_hi8 (n : Half) : le16 (lo8 n) (hi8 n) = n := by
  apply BitVec.eq_of_toNat_eq
  simp [le16, zext16, lo8, hi8, Nat.shiftRight_eq_div_pow]
  omega

@[simp] theorem lo8_le16 (l h : Byte) : lo8 (le16 l h) = l := by
  apply BitVec.eq_of_toNat_eq
  simp [le16, zext16, lo8, Nat.shiftRight_eq_div_pow]
  omega

@[simp] theorem hi8_le16 (l h : Byte) : hi8 (le16 l h) = h := by
  apply BitVec.eq_of_toNat_eq
  simp [le16, zext16, hi8, Nat.shiftRight_eq_div_pow]
  omega

/-- The length field holds the length of every payload that fits it. -/
theorem lengthField_toNat {p : List Byte} (h : p.length ≤ 65535) : (lengthField p).toNat = p.length := by
  simp [lengthField]
  omega

end Sys2Proof
end

