-- ==== Sys2Proof/Laws/State.lean ====
section
/-! SUPPORT. One lemma for each field of each update of the state, so that no later proof unfolds a record update. -/

namespace Sys2Proof.Machine

section
variable (s : State) (v : Answer) (k : Nat) (d : Dec) (r : Request)

@[simp] theorem State.answer_ck : (s.answer v).ck = s.ck := rfl
@[simp] theorem State.answer_enc : (s.answer v).enc = s.enc := rfl
@[simp] theorem State.answer_decs : (s.answer v).decs = s.decs := rfl
@[simp] theorem State.answer_requests : (s.answer v).requests = s.requests := rfl
@[simp] theorem State.answer_answers : (s.answer v).answers = s.answers ++ [v] := rfl

@[simp] theorem State.setDec_ck : (s.setDec k d).ck = s.ck := rfl
@[simp] theorem State.setDec_enc : (s.setDec k d).enc = s.enc := rfl
@[simp] theorem State.setDec_decs : (s.setDec k d).decs = s.decs.set k d := rfl
@[simp] theorem State.setDec_requests : (s.setDec k d).requests = s.requests := rfl
@[simp] theorem State.setDec_answers : (s.setDec k d).answers = s.answers := rfl

@[simp] theorem State.present_ck : (s.present r).ck = s.ck := rfl
@[simp] theorem State.present_enc : (s.present r).enc = s.enc := rfl
@[simp] theorem State.present_decs : (s.present r).decs = s.decs := rfl
@[simp] theorem State.present_requests : (s.present r).requests = r :: s.requests := rfl
@[simp] theorem State.present_answers : (s.present r).answers = s.answers := rfl
end

section
variable (d : Dec) (p : DecoderParams) (x : Byte)

@[simp] theorem Dec.resync_stage : d.resync.stage = .seekSync1 := rfl
@[simp] theorem Dec.resync_results : d.resync.results = d.results := rfl
@[simp] theorem Dec.resync_params : d.resync.params = d.params := rfl
@[simp] theorem Dec.reset_params : (Dec.reset p).params = p := rfl
@[simp] theorem Dec.reset_results : (Dec.reset p).results = [] := rfl
@[simp] theorem Dec.reset_stage : (Dec.reset p).stage = .seekSync1 := rfl

@[simp] theorem Dec.sum_stage : (d.sum x).stage = d.stage := rfl
@[simp] theorem Dec.sum_cls : (d.sum x).cls = d.cls := rfl
@[simp] theorem Dec.sum_id : (d.sum x).id = d.id := rfl
@[simp] theorem Dec.sum_length : (d.sum x).length = d.length := rfl
@[simp] theorem Dec.sum_payload : (d.sum x).payload = d.payload := rfl
@[simp] theorem Dec.sum_rxCkA : (d.sum x).rxCkA = d.rxCkA := rfl
@[simp] theorem Dec.sum_results : (d.sum x).results = d.results := rfl
@[simp] theorem Dec.sum_params : (d.sum x).params = d.params := rfl
theorem Dec.sum_ab : ((d.sum x).a, (d.sum x).b) = ckStep (d.a, d.b) x := rfl

@[simp] theorem Dec.hasRoom_sum : (d.sum x).hasRoom = d.hasRoom := rfl
@[simp] theorem Dec.hasRoom_resync : d.resync.hasRoom = d.hasRoom := rfl
end

section
variable (e : Enc) (v : Byte)

@[simp] theorem Enc.sum_stage : (e.sum v).stage = e.stage := rfl
@[simp] theorem Enc.sum_cls : (e.sum v).cls = e.cls := rfl
@[simp] theorem Enc.sum_id : (e.sum v).id = e.id := rfl
@[simp] theorem Enc.sum_length : (e.sum v).length = e.length := rfl
@[simp] theorem Enc.sum_payload : (e.sum v).payload = e.payload := rfl
@[simp] theorem Enc.sum_index : (e.sum v).index = e.index := rfl
theorem Enc.sum_ab : ((e.sum v).a, (e.sum v).b) = ckStep (e.a, e.b) v := rfl
end

section
variable (d : Dec) (e : Enc)

@[simp] theorem Dec.atStage_self : d.atStage d.stage = d := by simp [Dec.atStage]

@[simp] theorem Dec.atStage_stage (st : DecStage) : (d.atStage st).stage = st := by
  unfold Dec.atStage
  split
  · assumption
  · split
    · next h => exact h ▸ rfl
    · rfl

/-- A Decoder put in a stage keeps its queue and its parameters. -/
@[simp] theorem Dec.atStage_results (st : DecStage) : (d.atStage st).results = d.results := by
  unfold Dec.atStage
  split <;> [rfl; split <;> rfl]

@[simp] theorem Dec.atStage_params (st : DecStage) : (d.atStage st).params = d.params := by
  unfold Dec.atStage
  split <;> [rfl; split <;> rfl]

@[simp] theorem Enc.atStage_self : e.atStage e.stage = e := by simp [Enc.atStage]

@[simp] theorem Enc.atStage_stage (st : EncStage) : (e.atStage st).stage = st := by
  unfold Enc.atStage
  split
  · assumption
  · split
    · next h => exact h ▸ rfl
    · rfl
end

/-- Putting a Decoder back as it was changes nothing. -/
theorem State.setDec_self {s : State} {k : Nat} {d : Dec} (h : s.decs[k]? = some d) : s.setDec k d = s := by
  have hs : s.decs.set k d = s.decs := by
    apply List.ext_getElem?
    intro i
    rw [List.getElem?_set]
    split
    · next hk =>
      subst hk
      obtain ⟨hk, hd⟩ := List.getElem?_eq_some_iff.mp h
      simp [hk, hd]
    · rfl
  simp [State.setDec, hs]

/-- The Decoder put back is the one read afterwards, where there was one. -/
theorem State.setDec_get {s : State} {k : Nat} {d : Dec} (h : s.decs[k]? = some d) (e : Dec) :
    (s.setDec k e).decs[k]? = some e := by
  simp [State.setDec, (List.getElem?_eq_some_iff.mp h).1]

/-- No other Decoder is touched. -/
theorem State.setDec_get_ne {s : State} {k j : Nat} (h : k ≠ j) (e : Dec) :
    (s.setDec k e).decs[j]? = s.decs[j]? := by
  simp [State.setDec, List.getElem?_set_ne h]

@[simp] theorem State.setDec_setDec (s : State) (k : Nat) (d e : Dec) :
    (s.setDec k d).setDec k e = s.setDec k e := by simp [State.setDec]

end Sys2Proof.Machine
end

