-- ==== Sys2Proof/Laws/Ops.lean ====
section
/-! SUPPORT. For each shared operation, once, what it can do: the provers cite these and unfold none of them. -/

namespace Sys2Proof.Machine

/-! ## The checksum -/

@[simp] theorem fletcher_nil : fletcher [] = (0#8, 0#8) := rfl

/-- The checksum grows by one `ck_step` for each byte at the end (R86). -/
theorem fletcher_append_singleton (d : List Byte) (x : Byte) : fletcher (d ++ [x]) = ckStep (fletcher d) x := by
  simp [fletcher]

theorem fletcher_append (d e : List Byte) : fletcher (d ++ e) = e.foldl ckStep (fletcher d) := by
  simp [fletcher]

/-! ## The payload buffers -/

theorem memWrite_eq_some {capacity : Nat} {buf buf' : List Byte} {i : Nat} {v : Byte} :
    memWrite capacity buf i v = some buf' ↔ (i < capacity ∧ i = buf.length) ∧ buf' = buf ++ [v] := by
  unfold memWrite
  split
  · next h => exact ⟨fun e => ⟨h, (Option.some.inj e).symm⟩, fun e => congrArg some e.2.symm⟩
  · next h => exact ⟨fun e => (by cases e), fun e => absurd e.1 h⟩

/-- A write keeps the canonical form of the buffer. -/
theorem memWrite_wf {capacity : Nat} {buf buf' : List Byte} {i : Nat} {v : Byte}
    (h : memWrite capacity buf i v = some buf') : Memory.wf capacity buf' = true := by
  obtain ⟨⟨hi, rfl⟩, rfl⟩ := memWrite_eq_some.mp h
  simp [Memory.wf]
  omega

theorem memory_wf_nil (capacity : Nat) : Memory.wf capacity [] = true := by simp [Memory.wf]

theorem bufferCapacity_le (p : DecoderParams) : bufferCapacity p ≤ 65535 := by
  unfold bufferCapacity
  split <;> omega

/-- A length that does not exceed the limit fits the buffer. -/
theorem le_bufferCapacity_of_not_exceedsMax {p : DecoderParams} {n : Half} (h : exceedsMax p n = false) :
    n.toNat ≤ bufferCapacity p := by
  unfold exceedsMax at h
  unfold bufferCapacity
  split at h <;> simp_all
  omega

/-! ## Instances and answers -/

/-- An operation on a Decoder that answers anything but `noSuchDecoder` found its Decoder. -/
theorem State.onDec_eq_next {s t : State} {k : Nat} {f : Dec → Host.Outcome State Fault Refusal}
    (h : s.onDec k f = .next t) : ∃ d, s.decs[k]? = some d ∧ f d = .next t := by
  unfold State.onDec at h
  split at h
  · cases h
  · next d hd => exact ⟨d, hd, h⟩

theorem State.onDec_some {s : State} {k : Nat} {d : Dec} {f : Dec → Host.Outcome State Fault Refusal}
    (h : s.decs[k]? = some d) : s.onDec k f = f d := by simp [State.onDec, h]

theorem State.onDec_none {s : State} {k : Nat} {f : Dec → Host.Outcome State Fault Refusal}
    (h : s.decs[k]? = none) : s.onDec k f = .refused (.noSuchDecoder k) := by simp [State.onDec, h]

/-- Where bytes given to a Decoder end in a next state, that Decoder is replaced and one answer is added. -/
theorem State.settle_eq_next {s t : State} {k : Nat} {o : RxOutcome} (h : s.settle k o = .next t) :
    (∃ d, o = .took d ∧ t = (s.setDec k d).answer .done) ∨
      ∃ d rest, o = .held d rest ∧ t = (s.setDec k d).answer (.heldBack rest) := by
  cases o <;> simp_all [State.settle, eq_comm]

theorem State.onArm_eq_next {s t : State} {k : Nat} {stage : DecStage} {selected : Bool}
    {arm : Dec → RxOutcome} (h : s.onArm k stage selected arm = .next t) :
    ∃ d, s.decs[k]? = some d ∧ d.stage = stage ∧ selected = true ∧ s.settle k (arm d) = .next t := by
  obtain ⟨d, hd, h⟩ := State.onDec_eq_next h
  split at h
  · next hsel => exact ⟨d, hd, hsel.1, hsel.2, h⟩
  · cases h

theorem State.onArm_selected {s : State} {k : Nat} {d : Dec} {selected : Bool} {arm : Dec → RxOutcome}
    (hd : s.decs[k]? = some d) (hs : selected = true) :
    s.onArm k d.stage selected arm = s.settle k (arm d) := by
  simp [State.onArm, State.onDec_some hd, hs]

/-- Where a take ends in a next state, the Encoder is replaced and one answer is added. -/
theorem State.handOut_eq_next {s t : State} {o : TxOutcome} (h : s.handOut o = .next t) :
    ∃ v e, o = .ok (v, e) ∧ t = { s with enc := e }.answer (.byte v) := by
  match o with
  | .error r => cases h
  | .ok (v, e) => exact ⟨v, e, rfl, (Host.Outcome.next.inj h).symm⟩

theorem State.onTake_eq_next {s t : State} {stage : EncStage} {arm : Enc → TxOutcome}
    (h : s.onTake stage arm = .next t) : s.enc.stage = stage ∧ s.handOut (arm s.enc) = .next t := by
  unfold State.onTake at h
  split at h
  · exact ⟨‹_›, h⟩
  · cases h

/-! ## The end of a frame -/

theorem Dec.conclude_room {d : Dec} {r : Result} (h : d.hasRoom = true) :
    d.conclude r = some { Dec.reset d.params with results := d.results ++ [r] } := by
  simp [Dec.conclude, h, Dec.resync]

theorem Dec.conclude_full {d : Dec} {r : Result} (h : d.hasRoom = false) : d.conclude r = none := by
  simp [Dec.conclude, h]

/-- A frame, an error, or a byte held back: all that can come of a step that ends a frame. -/
theorem Dec.concluded_conclude (d d' : Dec) (x : Byte) (r : Result) :
    d.concluded x (d'.conclude r) =
      if d'.hasRoom then .took { Dec.reset d'.params with results := d'.results ++ [r] } else .held d [x] := by
  cases h : d'.hasRoom <;> simp [Dec.conclude, h, Dec.concluded, Dec.resync]

/-- With an unbounded queue there is always room. -/
theorem Dec.hasRoom_of_unbounded {d : Dec} (h : d.params.queueCap = none) : d.hasRoom = true := by
  simp [Dec.hasRoom, h]

/-! ## One byte -/

/-- Everything one byte can do to a Decoder, by stage (R110 to R119, R135). -/
theorem Dec.stepByte_eq (d : Dec) (x : Byte) : d.stepByte x =
    match d.stage with
    | .seekSync1 => .took (if x = sync1 then { d with stage := .seekSync2 } else d)
    | .seekSync2 =>
      .took (if x = sync2 then { d with stage := .readClass }
             else if x = sync1 then d else { d with stage := .seekSync1 })
    | .readClass => .took { d.sum x with cls := x, stage := .readId }
    | .readId => .took { d.sum x with id := x, stage := .readLenLo }
    | .readLenLo => .took { d.sum x with length := zext16 x, stage := .readLenHi }
    | .readLenHi => d.readLenHi x
    | .readPayload => d.readPayload x
    | .readCkA => .took { d with rxCkA := x, stage := .readCkB }
    | .readCkB => d.readCkB x := by
  cases h : d.stage <;> simp only [Dec.stepByte, h]
  case seekSync1 => split <;> rfl
  case seekSync2 =>
    split
    · rfl
    · split <;> rfl
  all_goals rfl

theorem Dec.readLenHi_eq (d : Dec) (x : Byte) : d.readLenHi x =
    if exceedsMax d.params (assembledLength d.length x) then
      if d.hasRoom then
        .took { Dec.reset d.params with
          results := d.results ++ [.error (.payloadTooLarge d.cls d.id (assembledLength d.length x))] }
      else .held d [x]
    else
      .took { d.sum x with
        length := assembledLength d.length x
        stage := if lengthPositive (assembledLength d.length x) then .readPayload else .readCkA } := by
  unfold Dec.readLenHi
  simp only [Dec.raise, Dec.concluded_conclude]
  split
  · rfl
  · split <;> simp

theorem Dec.readPayload_eq {d : Dec} (x : Byte) (h : d.payload.length < bufferCapacity d.params) :
    d.readPayload x =
      .took { d.sum x with
        payload := d.payload ++ [x]
        stage := if payloadCompletes d then .readCkA else d.stage } := by
  have hw : memWrite (bufferCapacity d.params) d.payload d.payload.length x = some (d.payload ++ [x]) :=
    memWrite_eq_some.mpr ⟨⟨h, rfl⟩, rfl⟩
  unfold Dec.readPayload
  rw [hw]
  cases payloadCompletes d <;> rfl

theorem Dec.readPayload_fault {d : Dec} (x : Byte) (h : ¬ d.payload.length < bufferCapacity d.params) :
    d.readPayload x = .fault (.payloadWriteOutOfRange d.payload.length) := by
  have hw : memWrite (bufferCapacity d.params) d.payload d.payload.length x = none := by
    simp [memWrite, h]
  unfold Dec.readPayload
  rw [hw]

/-- The result a completed frame gives: a `Frame` where the received pair is the computed one, else the error. -/
def Dec.verdict (d : Dec) (x : Byte) : Result :=
  if checksumMatches d x then
    .frame { messageClass := d.cls, messageId := d.id, payload := d.payload, checksum := (d.rxCkA, x) }
  else .error (.checksumMismatch d.cls d.id)

theorem Dec.readCkB_eq (d : Dec) (x : Byte) : d.readCkB x =
    if d.hasRoom then .took { Dec.reset d.params with results := d.results ++ [d.verdict x] }
    else .held d [x] := by
  unfold Dec.readCkB Dec.verdict
  simp only [Dec.raise, Dec.emit, Dec.concluded_conclude]
  split <;> rfl

/-- The declared length, with the low byte in the register (R116). -/
theorem assembledLength_toNat {low : Half} {x : Byte} (h : low.toNat < 256) :
    (assembledLength low x).toNat = low.toNat + 256 * x.toNat := by
  have := x.isLt
  simp [assembledLength, zext16]
  omega

/-- A consumed byte keeps the parameters and queues at most one result. -/
theorem Dec.stepByte_took {d d' : Dec} {x : Byte} (h : d.stepByte x = .took d') :
    d'.params = d.params ∧ ∃ new, d'.results = d.results ++ new ∧ new.length ≤ 1 := by
  rw [Dec.stepByte_eq] at h
  split at h
  case h_1 => cases h; split <;> exact ⟨rfl, [], by simp⟩
  case h_2 => cases h; split <;> [skip; split] <;> exact ⟨rfl, [], by simp⟩
  case h_6 =>
    rw [Dec.readLenHi_eq] at h
    split at h
    · split at h
      · cases h; exact ⟨rfl, [_], rfl, by simp⟩
      · cases h
    · cases h; exact ⟨rfl, [], by simp⟩
  case h_7 =>
    by_cases hb : d.payload.length < bufferCapacity d.params
    · rw [Dec.readPayload_eq x hb] at h; cases h; exact ⟨rfl, [], by simp⟩
    · rw [Dec.readPayload_fault x hb] at h; cases h
  case h_9 =>
    rw [Dec.readCkB_eq] at h
    split at h
    · cases h; exact ⟨rfl, [_], rfl, by simp⟩
    · cases h
  all_goals (cases h; exact ⟨rfl, [], by simp⟩)

/-- A byte that is held back is held back alone, and nothing has changed. -/
theorem Dec.stepByte_held {d d' : Dec} {x : Byte} {rest : List Byte} (h : d.stepByte x = .held d' rest) :
    d' = d ∧ rest = [x] ∧ d.hasRoom = false := by
  rw [Dec.stepByte_eq] at h
  split at h
  case h_6 =>
    rw [Dec.readLenHi_eq] at h
    split at h
    · split at h
      · cases h
      · cases h; exact ⟨rfl, rfl, by simp_all⟩
    · cases h
  case h_7 =>
    by_cases hb : d.payload.length < bufferCapacity d.params
    · rw [Dec.readPayload_eq x hb] at h; cases h
    · rw [Dec.readPayload_fault x hb] at h; cases h
  case h_9 =>
    rw [Dec.readCkB_eq] at h
    split at h
    · cases h
    · cases h; exact ⟨rfl, rfl, by simp_all⟩
  all_goals cases h

/-! ## A chunk -/

@[simp] theorem Dec.feed_nil (d : Dec) : d.feed [] = .took d := rfl

/-- A chunk in two pieces: the second follows where the first was consumed whole (R130). -/
theorem Dec.feed_append {d : Dec} (c1 c2 : List Byte) : d.feed (c1 ++ c2) =
    match d.feed c1 with
    | .took d' => d'.feed c2
    | .held d' rest => .held d' (rest ++ c2)
    | .fault r => .fault r := by
  induction c1 generalizing d with
  | nil => rfl
  | cons x rest ih =>
    simp only [List.cons_append, Dec.feed]
    cases d.stepByte x with
    | took d' => exact ih
    | held d' r => rfl
    | fault r => rfl

theorem Dec.feed_append_took {d d' : Dec} {c1 : List Byte} (c2 : List Byte) (h : d.feed c1 = .took d') :
    d.feed (c1 ++ c2) = d'.feed c2 := by rw [Dec.feed_append, h]

theorem Dec.feed_cons_took {d d' : Dec} {x : Byte} (rest : List Byte) (h : d.stepByte x = .took d') :
    d.feed (x :: rest) = d'.feed rest := by simp only [Dec.feed, h]

/-- A chunk, consumed whole or in part, keeps the parameters and only appends to the queue (R35, R49). -/
theorem Dec.feed_keeps {d d' : Dec} {bytes : List Byte}
    (h : d.feed bytes = .took d' ∨ ∃ rest, d.feed bytes = .held d' rest) :
    d'.params = d.params ∧ ∃ new, d'.results = d.results ++ new := by
  induction bytes generalizing d with
  | nil => rcases h with h | ⟨_, h⟩ <;> cases h; exact ⟨rfl, [], by simp⟩
  | cons x rest ih =>
    simp only [Dec.feed] at h
    cases hs : d.stepByte x with
    | took d1 =>
      obtain ⟨hp, n1, e1, -⟩ := Dec.stepByte_took hs
      rw [hs] at h
      obtain ⟨hp', n2, e2⟩ := ih h
      exact ⟨hp'.trans hp, n1 ++ n2, by simp [e2, e1]⟩
    | held d1 r =>
      obtain ⟨rfl, -, -⟩ := Dec.stepByte_held hs
      rw [hs] at h
      rcases h with h | ⟨_, h⟩ <;> cases h
      exact ⟨rfl, [], by simp⟩
    | fault r => simp [hs] at h

/-- Payload bytes that the declared length leaves room for are appended and summed, nothing else (R117). -/
theorem Dec.feed_payload (bytes : List Byte) {d : Dec} (hs : d.stage = .readPayload)
    (hcap : d.length.toNat ≤ bufferCapacity d.params) (hl : d.payload.length + bytes.length ≤ d.length.toNat) :
    d.feed bytes = .took { d with
      payload := d.payload ++ bytes
      a := (bytes.foldl ckStep (d.a, d.b)).1
      b := (bytes.foldl ckStep (d.a, d.b)).2
      stage := if bytes ≠ [] ∧ d.payload.length + bytes.length = d.length.toNat then .readCkA else .readPayload } := by
  induction bytes generalizing d with
  | nil => simp [← hs]
  | cons x rest ih =>
    simp only [List.length_cons] at hl
    have h1 : d.stepByte x = .took { d.sum x with
        payload := d.payload ++ [x], stage := if payloadCompletes d then .readCkA else d.stage } := by
      rw [Dec.stepByte_eq, hs]
      simp only
      rw [Dec.readPayload_eq x (by omega), hs]
    rw [Dec.feed_cons_took _ h1]
    cases rest with
    | nil => simp [payloadCompletes, hs, Dec.sum]
    | cons y ys =>
      simp only [List.length_cons] at hl
      have hpc : payloadCompletes d = false := by simp [payloadCompletes]; omega
      have hlen : d.payload.length + 1 + (ys.length + 1) = d.payload.length + (ys.length + 1 + 1) := by omega
      rw [hpc, ih (by simp [hs]) (by simpa using hcap) (by simp; omega)]
      simp [Dec.sum, hlen]

end Sys2Proof.Machine
end

