-- ==== Sys2Proof/Laws/PerInstr.lean ====
section
/-! SUPPORT. The statements made for each instruction as syntax. Family `RoundTrip`: the decoder reads back what the encoder
writes, with every operand at every value a well-formed instruction admits. -/

namespace Sys2Proof.Laws.RoundTrip

def Statement (i : Instr) : Prop := i.wellFormed = true → decode (encode i) = .ok i

/-- A word of the stage formats reads back as the arm its stage and byte select. -/
theorem decode_rxWordOf (k : Nat) (st : DecStage) (x : Byte) : decode (.rxWord k (rxWordOf st x)) =
    .ok (match st with
      | .seekSync1 => if x = sync1 then .rxSeekSync1Hit k else .rxSeekSync1Other k x
      | .seekSync2 =>
        if x = sync2 then .rxSeekSync2Hit k
        else if x = sync1 then .rxSeekSync2Sync1 k
        else .rxSeekSync2Other k x
      | .readClass => .rxReadClass k x
      | .readId => .rxReadId k x
      | .readLenLo => .rxReadLenLo k x
      | .readLenHi => .rxReadLenHi k x
      | .readPayload => .rxReadPayload k x
      | .readCkA => .rxReadCkA k x
      | .readCkB => .rxReadCkB k x) := by
  simp only [decode, decodeRx, rxWordOf_byte, rxWordOf_stage, DecStage.ofCode_code]
  cases st <;> rfl

theorem ckCompute (data : List Byte) : Statement (.ckCompute data) := fun _ => rfl

theorem ckVerify (data : List Byte) (ea : Byte) (eb : Byte) : Statement (.ckVerify data ea eb) := fun _ => rfl

theorem ckClear : Statement .ckClear := fun _ => rfl

theorem ckUpdate (x : Byte) : Statement (.ckUpdate x) := fun _ => rfl

theorem ckRead : Statement .ckRead := fun _ => rfl

theorem ckMatch (ea : Byte) (eb : Byte) : Statement (.ckMatch ea eb) := fun _ => rfl

theorem encEncode (cls : Byte) (id : Byte) (payload : List Byte) : Statement (.encEncode cls id payload) := fun _ => rfl

theorem encStart (cls : Byte) (id : Byte) (payload : List Byte) : Statement (.encStart cls id payload) := fun _ => rfl

theorem encNext : Statement .encNext := fun _ => rfl

theorem decReset (k : Nat) : Statement (.decReset k) := fun _ => rfl

theorem decFeed (k : Nat) (bytes : List Byte) : Statement (.decFeed k bytes) := fun _ => rfl

theorem decStep (k : Nat) (x : Byte) : Statement (.decStep k x) := fun _ => rfl

theorem decPoll (k : Nat) : Statement (.decPoll k) := fun _ => rfl

theorem rxSeekSync1Hit (k : Nat) : Statement (.rxSeekSync1Hit k) := fun _ => rfl

theorem rxSeekSync1Other (k : Nat) (x : Byte) : Statement (.rxSeekSync1Other k x) := by
  intro h
  have hx : x ≠ sync1 := by simpa [Instr.wellFormed, sync1] using h
  simp [encode, decode_rxWordOf, hx]

theorem rxSeekSync2Hit (k : Nat) : Statement (.rxSeekSync2Hit k) := fun _ => rfl

theorem rxSeekSync2Sync1 (k : Nat) : Statement (.rxSeekSync2Sync1 k) := fun _ => rfl

theorem rxSeekSync2Other (k : Nat) (x : Byte) : Statement (.rxSeekSync2Other k x) := by
  intro h
  have hx : x ≠ sync2 ∧ x ≠ sync1 := by simpa [Instr.wellFormed, sync1, sync2] using h
  simp [encode, decode_rxWordOf, hx.1, hx.2]

theorem rxReadClass (k : Nat) (x : Byte) : Statement (.rxReadClass k x) := fun _ => decode_rxWordOf k _ x

theorem rxReadId (k : Nat) (x : Byte) : Statement (.rxReadId k x) := fun _ => decode_rxWordOf k _ x

theorem rxReadLenLo (k : Nat) (x : Byte) : Statement (.rxReadLenLo k x) := fun _ => decode_rxWordOf k _ x

theorem rxReadLenHi (k : Nat) (x : Byte) : Statement (.rxReadLenHi k x) := fun _ => decode_rxWordOf k _ x

theorem rxReadPayload (k : Nat) (x : Byte) : Statement (.rxReadPayload k x) := fun _ => decode_rxWordOf k _ x

theorem rxReadCkA (k : Nat) (x : Byte) : Statement (.rxReadCkA k x) := fun _ => decode_rxWordOf k _ x

theorem rxReadCkB (k : Nat) (x : Byte) : Statement (.rxReadCkB k x) := fun _ => decode_rxWordOf k _ x

theorem txIdle : Statement .txIdle := fun _ => rfl

theorem txSync1 : Statement .txSync1 := fun _ => rfl

theorem txSync2 : Statement .txSync2 := fun _ => rfl

theorem txClass : Statement .txClass := fun _ => rfl

theorem txId : Statement .txId := fun _ => rfl

theorem txLenLo : Statement .txLenLo := fun _ => rfl

theorem txLenHi : Statement .txLenHi := fun _ => rfl

theorem txPayload : Statement .txPayload := fun _ => rfl

theorem txCkA : Statement .txCkA := fun _ => rfl

theorem txCkB : Statement .txCkB := fun _ => rfl

/-- The header's length says where the payload ends and the checksum begins (R57). -/
theorem frame (k : Nat) (cls id : Byte) (payload : List Byte) (ckA ckB : Byte) :
    Statement (.frame k cls id payload ckA ckB) := by
  intro h
  have hlen : (lengthField payload).toNat = payload.length :=
    lengthField_toNat (by simpa [Instr.wellFormed] using h)
  simp [encode, frameBytes, frameDomain, decode, decodeFrame, hlen]

end Sys2Proof.Laws.RoundTrip
end

