-- ==== Sys2Proof/Tests/Slice0.lean ====
section
/-! SUPPORT. The model's own tests. Expected results come from the spec: its test vectors (spec/95_test_vectors.md V1 to V48, P1 to P5)
and the numbers its rules print. First the ill-formed terms, then words written out bit by bit, then one step of each family, and
last a witness for each statement with hypotheses. -/

namespace Sys2Proof.Tests

open Sys2Proof.Machine Sys2Proof.Claim

/-! ## Helpers -/

def after (o : Host.Outcome State Fault Refusal) : Option State :=
  match o with
  | .next s => some s
  | .fault _ => none
  | .refused _ => none

/-- What the last operation returned. -/
def returned (o : Host.Outcome State Fault Refusal) : Option Answer :=
  match after o with
  | some s => s.answers.getLast?
  | none => none

def refusal (o : Host.Outcome State Fault Refusal) : Option Refusal :=
  match o with
  | .refused r => some r
  | .next _ => none
  | .fault _ => none

/-- The block with one Decoder, as given. -/
def withDec (d : Dec) : State := { State.init { decoders := [] } with decs := [d] }

/-- The block without a Decoder and with the Encoder as given. -/
def withEnc (e : Enc) : State := { State.init { decoders := [] } with enc := e }

def decAfter (o : Host.Outcome State Fault Refusal) : Option Dec :=
  match after o with
  | some s => s.decs[0]?
  | none => none

def plain : DecoderParams := DecoderParams.specDefault

/-- `F` of the vectors, `ENC.ENCODE 01 02 []` (V16). -/
def frameF : List Byte := [0xB5#8, 0x62#8, 0x01#8, 0x02#8, 0x00#8, 0x00#8, 0x03#8, 0x0A#8]

/-- `G` of the vectors, `ENC.ENCODE 06 01 [01 02]` (V17). -/
def frameG : List Byte :=
  [0xB5#8, 0x62#8, 0x06#8, 0x01#8, 0x02#8, 0x00#8, 0x01#8, 0x02#8, 0x0C#8, 0x35#8]

def resultF : Result :=
  .frame { messageClass := 0x01#8, messageId := 0x02#8, payload := [], checksum := (0x03#8, 0x0A#8) }

def resultG : Result :=
  .frame { messageClass := 0x06#8, messageId := 0x01#8, payload := [0x01#8, 0x02#8], checksum := (0x0C#8, 0x35#8) }

/-! ## Ill-formed terms, one for each check -/

theorem test_illformed_seekSync1Other : (Instr.rxSeekSync1Other 0 0xB5#8).wellFormed = false := by decide

theorem test_illformed_seekSync2Other_sync2 : (Instr.rxSeekSync2Other 0 0x62#8).wellFormed = false := by decide

theorem test_illformed_seekSync2Other_sync1 : (Instr.rxSeekSync2Other 0 0xB5#8).wellFormed = false := by decide

theorem test_illformed_frame_too_long :
    (Instr.frame 0 0#8 0#8 (List.replicate 65536 0#8) 0#8 0#8).wellFormed = false := by
  have h : (List.replicate 65536 (0#8 : Byte)).length = 65536 := List.length_replicate
  simp only [Instr.wellFormed, h]
  decide

/-! ## Every constructor's word, written out from R57, R63, R64 and R65 -/

theorem test_words_ck :
    decode (.op 0 [0b00010000#8, 0x01#8, 0x02#8]) = .ok (.ckCompute [0x01#8, 0x02#8]) ∧
    decode (.op 0 [0b00010001#8, 0x03#8, 0x04#8, 0x01#8, 0x02#8]) = .ok (.ckVerify [0x01#8, 0x02#8] 0x03#8 0x04#8) ∧
    decode (.op 0 [0b00010010#8]) = .ok .ckClear ∧
    decode (.op 0 [0b00010011#8, 0x06#8]) = .ok (.ckUpdate 0x06#8) ∧
    decode (.op 0 [0b00010100#8]) = .ok .ckRead ∧
    decode (.op 0 [0b00010101#8, 0x0C#8, 0x35#8]) = .ok (.ckMatch 0x0C#8 0x35#8) := ⟨rfl, rfl, rfl, rfl, rfl, rfl⟩

theorem test_words_enc :
    decode (.op 0 [0b00100000#8, 0x06#8, 0x01#8, 0x7F#8]) = .ok (.encEncode 0x06#8 0x01#8 [0x7F#8]) ∧
    decode (.op 0 [0b00100001#8, 0x06#8, 0x01#8, 0x7F#8]) = .ok (.encStart 0x06#8 0x01#8 [0x7F#8]) ∧
    decode (.op 0 [0b00100010#8]) = .ok .encNext := ⟨rfl, rfl, rfl⟩

theorem test_words_dec :
    decode (.op 1 [0b00110000#8]) = .ok (.decReset 1) ∧
    decode (.op 1 [0b00110001#8, 0xB5#8, 0x62#8]) = .ok (.decFeed 1 [0xB5#8, 0x62#8]) ∧
    decode (.op 1 [0b00110010#8, 0xB5#8]) = .ok (.decStep 1 0xB5#8) ∧
    decode (.op 1 [0b00110011#8]) = .ok (.decPoll 1) := ⟨rfl, rfl, rfl, rfl⟩

theorem test_words_rx_seek :
    decode (.rxWord 0 0b000010110101#12) = .ok (.rxSeekSync1Hit 0) ∧
    decode (.rxWord 0 0b000000000000#12) = .ok (.rxSeekSync1Other 0 0x00#8) ∧
    decode (.rxWord 0 0b000101100010#12) = .ok (.rxSeekSync2Hit 0) ∧
    decode (.rxWord 0 0b000110110101#12) = .ok (.rxSeekSync2Sync1 0) ∧
    decode (.rxWord 0 0b000101000001#12) = .ok (.rxSeekSync2Other 0 0x41#8) := ⟨rfl, rfl, rfl, rfl, rfl⟩

/-- The words of P3, k = 6 to 13. -/
theorem test_words_rx_read :
    decode (.rxWord 0 0b001000000110#12) = .ok (.rxReadClass 0 0x06#8) ∧
    decode (.rxWord 0 0b001100000001#12) = .ok (.rxReadId 0 0x01#8) ∧
    decode (.rxWord 0 0b010000000010#12) = .ok (.rxReadLenLo 0 0x02#8) ∧
    decode (.rxWord 0 0b010100000000#12) = .ok (.rxReadLenHi 0 0x00#8) ∧
    decode (.rxWord 0 0b011000000011#12) = .ok (.rxReadPayload 0 0x03#8) ∧
    decode (.rxWord 0 0b011100001100#12) = .ok (.rxReadCkA 0 0x0C#8) ∧
    decode (.rxWord 0 0b100000110101#12) = .ok (.rxReadCkB 0 0x35#8) := ⟨rfl, rfl, rfl, rfl, rfl, rfl, rfl⟩

theorem test_words_tx :
    decode (.txWord 0b0000#4) = .ok .txIdle ∧ decode (.txWord 0b0001#4) = .ok .txSync1 ∧
    decode (.txWord 0b0010#4) = .ok .txSync2 ∧ decode (.txWord 0b0011#4) = .ok .txClass ∧
    decode (.txWord 0b0100#4) = .ok .txId ∧ decode (.txWord 0b0101#4) = .ok .txLenLo ∧
    decode (.txWord 0b0110#4) = .ok .txLenHi ∧ decode (.txWord 0b0111#4) = .ok .txPayload ∧
    decode (.txWord 0b1000#4) = .ok .txCkA ∧ decode (.txWord 0b1001#4) = .ok .txCkB :=
  ⟨rfl, rfl, rfl, rfl, rfl, rfl, rfl, rfl, rfl, rfl⟩

/-- The header pattern of R57, `10110101 01100010 cccccccc iiiiiiii llllllll hhhhhhhh`, with one payload byte: V21, whose length is
`01 00`, not `00 01`. -/
theorem test_words_frame :
    decode (.frame 0 [0b10110101#8, 0b01100010#8, 0b00001010#8, 0b00000100#8, 0b00000001#8, 0b00000000#8, 0x7F#8,
      0x8E#8, 0xC4#8]) = .ok (.frame 0 0x0A#8 0x04#8 [0x7F#8] 0x8E#8 0xC4#8) := rfl

theorem test_words_refused :
    decode (.op 0 []) = .error .noOpCode ∧ decode (.op 0 [0x16#8]) = .error (.reservedOp 0x16#8) ∧
    decode (.op 0 [0x13#8]) = .error (.badOperands 0x13#8) ∧ decode (.op 1 [0x12#8]) = .error (.noSuchUnit 1) ∧
    decode (.rxWord 0 0x900#12) = .error (.reservedDecStage 0x900#12) ∧
    decode (.txWord 0xA#4) = .error (.reservedEncStage 0xA#4) ∧
    decode (.frame 0 [0xB5#8, 0x63#8, 0#8, 0#8, 0#8, 0#8, 0#8, 0#8]) = .error .noSyncPair ∧
    decode (.frame 0 [0xB5#8, 0x62#8, 0#8, 0#8, 1#8, 0#8, 0#8, 0#8]) = .error .frameLength :=
  ⟨rfl, rfl, rfl, rfl, rfl, rfl, rfl, rfl⟩

theorem test_table_rows_found :
    decodeTableWord 8 0x11 = some (.ckVerify [] 0#8 0#8) ∧ decodeTableWord 16 0x500 = some (.rxReadLenHi 0 0#8) ∧
    decodeTableWord 8 0x0 = some .txIdle ∧ decodeTableWord 48 0xB56200000000 = some (.frame 0 0#8 0#8 [] 0#8 0#8) ∧
    decodeTableWord 8 0x0A = none := by decide

/-! ## The Checksum Engine (V8, V10, V15c, P1) -/

theorem test_ckCompute_wraps : returned (exec (.ckCompute [0xFF#8, 0xFF#8]) State.reset) = some (.pair 0xFE#8 0xFD#8) := by
  decide

theorem test_ckCompute_domain_of_G :
    returned (exec (.ckCompute [0x06#8, 0x01#8, 0x02#8, 0x00#8, 0x01#8, 0x02#8]) State.reset) =
      some (.pair 0x0C#8 0x35#8) := by decide

theorem test_ckVerify : returned (exec (.ckVerify [0x01#8, 0x02#8] 0x03#8 0x04#8) State.reset) = some (.truth true) ∧
    returned (exec (.ckVerify [0x01#8, 0x02#8] 0x04#8 0x03#8) State.reset) = some (.truth false) := by decide

def ckAt (a b : Byte) : State := { State.reset with ck := { a := a, b := b } }

theorem test_ckClear : (after (exec .ckClear (ckAt 0x5A#8 0x5A#8))).map State.ck = some { a := 0#8, b := 0#8 } := by decide

theorem test_ckUpdate : (after (exec (.ckUpdate 0x02#8) (ckAt 0x01#8 0x01#8))).map State.ck =
    some { a := 0x03#8, b := 0x04#8 } := by decide

theorem test_ckUpdate_wraps : (after (exec (.ckUpdate 0xFF#8) (ckAt 0xFF#8 0xFF#8))).map State.ck =
    some { a := 0xFE#8, b := 0xFD#8 } := by decide

theorem test_ckRead : returned (exec .ckRead (ckAt 0x0C#8 0x35#8)) = some (.pair 0x0C#8 0x35#8) := by decide

theorem test_ckMatch : returned (exec (.ckMatch 0x0C#8 0x35#8) (ckAt 0x0C#8 0x35#8)) = some (.truth true) ∧
    returned (exec (.ckMatch 0x35#8 0x0C#8) (ckAt 0x0C#8 0x35#8)) = some (.truth false) := by decide

/-! ## The Encoder (V17, V20, V24, V24c, P2) -/

theorem test_encEncode_G :
    returned (exec (.encEncode 0x06#8 0x01#8 [0x01#8, 0x02#8]) State.reset) = some (.bytes frameG) := by decide

theorem test_encEncode_sync_values :
    returned (exec (.encEncode 0xB5#8 0x62#8 [0xB5#8, 0x62#8, 0x00#8]) State.reset) =
      some (.bytes [0xB5#8, 0x62#8, 0xB5#8, 0x62#8, 0x03#8, 0x00#8, 0xB5#8, 0x62#8, 0x00#8, 0x31#8, 0x31#8]) := by
  decide

/-- The registers of P2 at a step. -/
def encP2 (stage : EncStage) (index : Half) (a b : Byte) : Enc :=
  { stage := stage, cls := 0x06#8, id := 0x01#8, length := 2#16, payload := [0x01#8, 0x02#8], index := index,
    a := a, b := b }

theorem test_encStart : (after (exec (.encStart 0x06#8 0x01#8 [0x01#8, 0x02#8]) State.reset)).map State.enc =
    some (encP2 .sync1 0#16 0#8 0#8) := by decide

theorem test_encStart_busy :
    returned (exec (.encStart 0x06#8 0x01#8 []) (withEnc (encP2 .sync1 0#16 0#8 0#8))) = some .refusedBusy := by decide

/-- What a take from `e` returns, and the Encoder after it. -/
def take (i : Instr) (e : Enc) : Option (Answer × Enc) :=
  match after (exec i (withEnc e)) with
  | some s => s.answers.getLast?.map fun v => (v, s.enc)
  | none => none

theorem test_encNext_lenLo : take .encNext (encP2 .lenLo 0#16 0x07#8 0x0D#8) =
    some (.byte (some 0x02#8), encP2 .lenHi 0#16 0x09#8 0x16#8) := by decide

theorem test_txIdle : take .txIdle Enc.reset = some (.byte none, Enc.reset) := by decide

theorem test_txSync1 : take .txSync1 (encP2 .sync1 0#16 0#8 0#8) =
    some (.byte (some 0xB5#8), encP2 .sync2 0#16 0#8 0#8) := by decide

theorem test_txSync2 : take .txSync2 (encP2 .sync2 0#16 0#8 0#8) =
    some (.byte (some 0x62#8), encP2 .cls 0#16 0#8 0#8) := by decide

theorem test_txClass : take .txClass (encP2 .cls 0#16 0#8 0#8) =
    some (.byte (some 0x06#8), encP2 .id 0#16 0x06#8 0x06#8) := by decide

theorem test_txId : take .txId (encP2 .id 0#16 0x06#8 0x06#8) =
    some (.byte (some 0x01#8), encP2 .lenLo 0#16 0x07#8 0x0D#8) := by decide

theorem test_txLenLo : take .txLenLo (encP2 .lenLo 0#16 0x07#8 0x0D#8) =
    some (.byte (some 0x02#8), encP2 .lenHi 0#16 0x09#8 0x16#8) := by decide

theorem test_txLenHi : take .txLenHi (encP2 .lenHi 0#16 0x09#8 0x16#8) =
    some (.byte (some 0x00#8), encP2 .payload 0#16 0x09#8 0x1F#8) := by decide

theorem test_txPayload_more : take .txPayload (encP2 .payload 0#16 0x09#8 0x1F#8) =
    some (.byte (some 0x01#8), encP2 .payload 1#16 0x0A#8 0x29#8) := by decide

theorem test_txPayload_last : take .txPayload (encP2 .payload 1#16 0x0A#8 0x29#8) =
    some (.byte (some 0x02#8), encP2 .ckA 2#16 0x0C#8 0x35#8) := by decide

theorem test_txCkA : take .txCkA (encP2 .ckA 2#16 0x0C#8 0x35#8) =
    some (.byte (some 0x0C#8), encP2 .ckB 2#16 0x0C#8 0x35#8) := by decide

theorem test_txCkB : take .txCkB (encP2 .ckB 2#16 0x0C#8 0x35#8) = some (.byte (some 0x35#8), Enc.reset) := by decide

/-! ## The Decoder (V27, V34, V39a, V43, P3, P5) -/

/-- The registers of P3 at a step: class 06, id 01, length 2. -/
def decP3 (stage : DecStage) (payload : List Byte) (a b rxCkA : Byte) : Dec :=
  { stage := stage, cls := 0x06#8, id := 0x01#8, length := 2#16, payload := payload, a := a, b := b,
    rxCkA := rxCkA, results := [], params := plain }

theorem test_decReset : decAfter (exec (.decReset 0) (withDec { decP3 .readPayload [0x01#8] 0x0A#8 0x29#8 0#8 with
    results := [resultF] })) = some (Dec.reset plain) := by decide

theorem test_decFeed_noise_ending_in_sync1 :
    (decAfter (exec (.decFeed 0 ([0x11#8, 0xB5#8] ++ frameG)) State.reset)) =
      some (idleDec plain [resultG]) := by decide

/-- V39a: with `MAX_PAYLOAD = 4` the frame inside the refused frame's payload is found. -/
theorem test_decFeed_limit :
    decAfter (exec (.decFeed 0 ([0xB5#8, 0x62#8, 0x0A#8, 0x04#8, 0x05#8, 0x00#8] ++ frameF ++ [0x00#8, 0x00#8]))
      (withDec (Dec.reset { plain with maxPayload := some 4#16 }))) =
      some (idleDec { plain with maxPayload := some 4#16 }
        [.error (.payloadTooLarge 0x0A#8 0x04#8 5#16), resultF]) := by decide

/-- P3, k = 13: the comparison is `(0D, 36)` against `(0C, 35)`. -/
theorem test_decStep_mismatch :
    decAfter (exec (.decStep 0 0x35#8) (withDec (decP3 .readCkB [0x01#8, 0x03#8] 0x0D#8 0x36#8 0x0C#8))) =
      some (idleDec plain [.error (.checksumMismatch 0x06#8 0x01#8)]) := by decide

theorem test_decPoll :
    returned (exec (.decPoll 0) (withDec (idleDec plain [resultF, resultG]))) = some (.result (some resultF)) ∧
    decAfter (exec (.decPoll 0) (withDec (idleDec plain [resultF, resultG]))) = some (idleDec plain [resultG]) ∧
    returned (exec (.decPoll 0) State.reset) = some (.result none) := by decide

theorem test_rxSeekSync1Hit : decAfter (exec (.rxSeekSync1Hit 0) State.reset) =
    some { Dec.reset plain with stage := .seekSync2 } := by decide

theorem test_rxSeekSync1Other : decAfter (exec (.rxSeekSync1Other 0 0x62#8) State.reset) = some (Dec.reset plain) := by
  decide

theorem test_rxSeekSync2 :
    decAfter (exec (.rxSeekSync2Hit 0) (withDec { Dec.reset plain with stage := .seekSync2 })) =
      some { Dec.reset plain with stage := .readClass } ∧
    decAfter (exec (.rxSeekSync2Sync1 0) (withDec { Dec.reset plain with stage := .seekSync2 })) =
      some { Dec.reset plain with stage := .seekSync2 } ∧
    decAfter (exec (.rxSeekSync2Other 0 0x41#8) (withDec { Dec.reset plain with stage := .seekSync2 })) =
      some (Dec.reset plain) := by decide

theorem test_rxReadClass : decAfter (exec (.rxReadClass 0 0x06#8) (withDec { Dec.reset plain with stage := .readClass })) =
    some { Dec.reset plain with stage := .readId, cls := 0x06#8, a := 0x06#8, b := 0x06#8 } := by decide

theorem test_rxReadId : decAfter (exec (.rxReadId 0 0x01#8) (withDec
    { Dec.reset plain with stage := .readId, cls := 0x06#8, a := 0x06#8, b := 0x06#8 })) =
    some { Dec.reset plain with stage := .readLenLo, cls := 0x06#8, id := 0x01#8, a := 0x07#8, b := 0x0D#8 } := by
  decide

theorem test_rxReadLenLo : decAfter (exec (.rxReadLenLo 0 0x02#8) (withDec
    { Dec.reset plain with stage := .readLenLo, cls := 0x06#8, id := 0x01#8, a := 0x07#8, b := 0x0D#8 })) =
    some (decP3 .readLenHi [] 0x09#8 0x16#8 0#8) := by decide

/-- P3, k = 9; and length bytes `00 01` mean 256 (V45). -/
theorem test_rxReadLenHi :
    decAfter (exec (.rxReadLenHi 0 0x00#8) (withDec (decP3 .readLenHi [] 0x09#8 0x16#8 0#8))) =
      some (decP3 .readPayload [] 0x09#8 0x1F#8 0#8) ∧
    (decAfter (exec (.rxReadLenHi 0 0x01#8) (withDec { decP3 .readLenHi [] 0#8 0#8 0#8 with length := 0#16 }))).map
      Dec.length = some 256#16 := by decide

theorem test_rxReadPayload : decAfter (exec (.rxReadPayload 0 0x03#8) (withDec (decP3 .readPayload [0x01#8] 0x0A#8 0x29#8 0#8))) =
    some (decP3 .readCkA [0x01#8, 0x03#8] 0x0D#8 0x36#8 0#8) := by decide

theorem test_rxReadCkA : decAfter (exec (.rxReadCkA 0 0x0C#8) (withDec (decP3 .readCkA [0x01#8, 0x03#8] 0x0D#8 0x36#8 0#8))) =
    some (decP3 .readCkB [0x01#8, 0x03#8] 0x0D#8 0x36#8 0x0C#8) := by decide

theorem test_rxReadCkB : decAfter (exec (.rxReadCkB 0 0x35#8) (withDec (decP3 .readCkB [0x01#8, 0x02#8] 0x0C#8 0x35#8 0x0C#8))) =
    some (idleDec plain [resultG]) := by decide

/-- V46; and V42, the checksum bytes swapped. -/
theorem test_frame :
    decAfter (exec (.frame 0 0x0A#8 0x04#8 [0x7F#8] 0x8E#8 0xC4#8) State.reset) = some (idleDec plain [.frame
      { messageClass := 0x0A#8, messageId := 0x04#8, payload := [0x7F#8], checksum := (0x8E#8, 0xC4#8) }]) ∧
    decAfter (exec (.frame 0 0x06#8 0x01#8 [0x01#8, 0x02#8] 0x35#8 0x0C#8) State.reset) =
      some (idleDec plain [.error (.checksumMismatch 0x06#8 0x01#8)]) := by decide

/-! ## Steps -/

theorem test_step_from_reset_is_idle : after (step State.reset) = some State.reset := by decide

theorem test_step_runs_presented_payload_row :
    (decAfter (step (State.reset.withFetchWord 16 0x67F))).map Dec.payload = some [0x7F#8] ∧
    returned (step (State.reset.withFetchWord 8 0x7)) = some (.byte (some 0#8)) := by decide

theorem test_step_refuses_unknown_op :
    refusal (step (State.reset.present (.op 0 [0x23#8]))) = some (.undecodable (.reservedOp 0x23#8)) := by decide

theorem test_step_refuses_missing_decoder :
    refusal (step (State.reset.present (.op 2 [0x33#8]))) = some (.noSuchDecoder 2) := by decide

/-! ## Witnesses

For each statement with hypotheses, a state and operands that meet them together; where a statement has clauses with hypotheses of
their own, one for each clause, at a boundary of its range. -/

theorem witness_ResetGivesTheTableOfValues : State.reset.decs[1]? = some (Dec.reset plain) := by decide

/-- A presented request of each kind, decoding to a well-formed instruction. -/
theorem witness_StepRunsTheDecodedRequest :
    State.reset.requests = [] ∧
    (State.reset.present (.op 0 [0x12#8])).requests = .op 0 [0x12#8] :: [] ∧
    fetch (State.reset.present (.rxByte 0 0xB5#8)) (.rxByte 0 0xB5#8) = .ok (.rxWord 0 0x0B5#12) ∧
    decode (.rxWord 0 0x0B5#12) = .ok (.rxSeekSync1Hit 0) ∧ (Instr.rxSeekSync1Hit 0).wellFormed = true :=
  ⟨rfl, rfl, rfl, rfl, rfl⟩

theorem witness_DecodeReadsBackEveryEncodedInstruction :
    (Instr.rxSeekSync2Other 0 0x63#8).wellFormed = true ∧ (Instr.frame 0 0#8 0#8 [0#8] 0#8 0#8).wellFormed = true := by
  decide

theorem witness_EncodeGivesBackEveryDecodedWord :
    decode (.op 0 [0x32#8, 0xB5#8]) = .ok (.decStep 0 0xB5#8) ∧ decode (.rxWord 0 0x8FF#12) = .ok (.rxReadCkB 0 0xFF#8) :=
  ⟨rfl, rfl⟩

theorem witness_StepAndNextPerformTheSelectedArm : State.reset.decs[0]? = some (Dec.reset plain) := by decide

theorem witness_ReservedCodesAreRefused :
    9 * 256 ≤ (0x900#12).toNat ∧ 10 ≤ (0xA#4).toNat ∧
    (State.reset.present (.op 0 [0x16#8])).requests = .op 0 (0x16#8 :: []) :: [] ∧
    (0x16#8).toNat ∉ [0x10, 0x11, 0x12, 0x13, 0x14, 0x15, 0x20, 0x21, 0x22, 0x30, 0x31, 0x32, 0x33] := by decide

/-- A word of each kind; a Decoder and an Encoder well formed in the middle of a frame; the limit that just admits one payload byte. -/
theorem witness_PresentedWordRunsNext :
    decodeTableWord 8 0x33 = some (.decPoll 0) ∧ decodeTableWord 16 0x835 = some (.rxReadCkB 0 0x35#8) ∧
    decodeTableWord 8 0x7 = some .txPayload ∧ decodeTableWord 48 0xB56206010000 = some (.frame 0 0x06#8 0x01#8 [] 0#8 0#8) ∧
    (decP3 .readCkA [0x01#8, 0x02#8] 0x0C#8 0x35#8 0#8).wf = true ∧
    ¬Exceeds { plain with maxPayload := some 1#16 } 1 ∧ (idleDec { plain with maxPayload := some 1#16 } []).wf = true ∧
    (encP2 .payload 1#16 0x0A#8 0x29#8).wf = true :=
  ⟨by decide, by decide, by decide, by decide, by decide, by simp [Exceeds], by decide, by decide⟩

theorem witness_ChecksumDetectsChanges : (0#8 : Byte) ≠ 0x80#8 ∧ ([] : List Byte).length % 2 = 0 := by decide

theorem witness_EncodeOutputByIndex :
    ([] : List Byte).length ≤ 65535 ∧ (List.replicate 65535 (0#8 : Byte)).length ≤ 65535 ∧
    65535 < (List.replicate 65536 (0#8 : Byte)).length := by
  rw [List.length_replicate, List.length_replicate]
  decide

theorem witness_StartLatchesOrIsTurnedAway :
    State.reset.enc.stage = .idle ∧ (withEnc (encP2 .ckB 2#16 0x0C#8 0x35#8)).enc.stage ≠ .idle := by decide

/-- `lo`, `hi`, `v` and `next` of the three stages with a side condition, the last payload byte among them. -/
theorem witness_EncoderStagesHandOutTheFrame :
    ((withEnc (encP2 .lenLo 0#16 0#8 0#8)).enc.stage = .lenLo ∧
      (0x02#8 : Byte).toNat = (withEnc (encP2 .lenLo 0#16 0#8 0#8)).enc.length.toNat % 256) ∧
    ((withEnc (encP2 .lenHi 0#16 0#8 0#8)).enc.stage = .lenHi ∧
      (0x00#8 : Byte).toNat = (withEnc (encP2 .lenHi 0#16 0#8 0#8)).enc.length.toNat / 256) ∧
    ((withEnc (encP2 .payload 1#16 0#8 0#8)).enc.stage = .payload ∧
      (withEnc (encP2 .payload 1#16 0#8 0#8)).enc.payload[(1#16 : Half).toNat]? = some 0x02#8 ∧
      (2#16 : Half).toNat = (withEnc (encP2 .payload 1#16 0#8 0#8)).enc.index.toNat + 1) ∧
    State.reset.enc.stage = .idle ∧ (withEnc (encP2 .ckB 2#16 0#8 0#8)).enc.stage = .ckB := by decide

theorem witness_SerialEncoderRefinesEncode : State.reset.enc.stage = .idle ∧ [(0x7F#8 : Byte)].length ≤ 65535 := by decide

theorem witness_SeekStagesFindTheSyncPair :
    State.reset.decs[0]? = some (Dec.reset plain) ∧ (Dec.reset plain).stage = .seekSync1 ∧ (0x62#8 : Byte) ≠ 0xB5#8 ∧
    (withDec { Dec.reset plain with stage := .seekSync2 }).decs[0]? = some { Dec.reset plain with stage := .seekSync2 } ∧
    (0x63#8 : Byte) ≠ 0x62#8 ∧ (0x63#8 : Byte) ≠ 0xB5#8 := by decide

/-- A Decoder may stand in each of the three stages, and `n` is there for the largest byte. -/
theorem witness_HeaderStagesStoreAndSum :
    (withDec (decP3 .readClass [] 0#8 0#8 0#8)).decs[0]? = some (decP3 .readClass [] 0#8 0#8 0#8) ∧
    (withDec (decP3 .readId [] 0#8 0#8 0#8)).decs[0]? = some (decP3 .readId [] 0#8 0#8 0#8) ∧
    (withDec (decP3 .readLenLo [] 0#8 0#8 0#8)).decs[0]? = some (decP3 .readLenLo [] 0#8 0#8 0#8) ∧
    (255#16 : Half).toNat = (0xFF#8 : Byte).toNat := by decide

/-- A Decoder in `ReadLenHi` with the low byte `low`, a limit and a queue of one. -/
def lenHiDec (low limit : Half) : Dec :=
  { Dec.reset { maxPayload := some limit, queueCap := some 1 } with stage := .readLenHi, length := low }

/-- A limit of 4: length 5 exceeds it, length 4 does not; and length 0 is the third clause's, even with a limit of 0. -/
theorem witness_LengthStageChecksTheLimit :
    ((withDec (lenHiDec 5#16 4#16)).decs[0]? = some (lenHiDec 5#16 4#16) ∧ (lenHiDec 5#16 4#16).stage = .readLenHi ∧
      (5#16 : Half).toNat = (lenHiDec 5#16 4#16).length.toNat + 256 * (0#8 : Byte).toNat ∧
      Exceeds (lenHiDec 5#16 4#16).params (5#16 : Half).toNat ∧ Room (lenHiDec 5#16 4#16) 1) ∧
    ((withDec (lenHiDec 4#16 4#16)).decs[0]? = some (lenHiDec 4#16 4#16) ∧ (lenHiDec 4#16 4#16).stage = .readLenHi ∧
      (4#16 : Half).toNat = (lenHiDec 4#16 4#16).length.toNat + 256 * (0#8 : Byte).toNat ∧
      ¬Exceeds (lenHiDec 4#16 4#16).params (4#16 : Half).toNat ∧ 0 < (4#16 : Half).toNat) ∧
    ((withDec (lenHiDec 0#16 0#16)).decs[0]? = some (lenHiDec 0#16 0#16) ∧ (lenHiDec 0#16 0#16).stage = .readLenHi ∧
      (0#16 : Half).toNat = (lenHiDec 0#16 0#16).length.toNat + 256 * (0#8 : Byte).toNat ∧
      ¬Exceeds (lenHiDec 0#16 0#16).params (0#16 : Half).toNat ∧ (0#16 : Half).toNat = 0) := by
  simp [Exceeds, Room, lenHiDec, withDec, Dec.reset]

/-- The last byte of a payload of two, under a limit of two. -/
theorem witness_PayloadStageAppends :
    let d := { decP3 .readPayload [0x01#8] 0x0A#8 0x29#8 0#8 with params := { plain with maxPayload := some 2#16 } }
    (withDec d).decs[0]? = some d ∧ d.stage = .readPayload ∧ d.payload.length < d.length.toNat ∧
      ¬Exceeds d.params d.length.toNat := by
  simp [Exceeds, withDec, decP3]

/-- Each clause on the frame `G`: the first checksum byte, the right second byte, and a wrong one. -/
theorem witness_ChecksumStagesJudgeTheFrame :
    let c := decP3 .readCkA [0x01#8, 0x02#8] 0x0C#8 0x35#8 0#8
    let d := { decP3 .readCkB [0x01#8, 0x02#8] 0x0C#8 0x35#8 0x0C#8 with params := { plain with queueCap := some 1 } }
    ((withDec c).decs[0]? = some c ∧ c.stage = .readCkA) ∧
    ((withDec d).decs[0]? = some d ∧ d.stage = .readCkB ∧ Room d 1 ∧ d.a = d.rxCkA ∧ d.b = 0x35#8) ∧
    ¬(d.a = d.rxCkA ∧ d.b = 0x34#8) := by
  simp [Room, withDec, decP3]

/-- A Decoder one byte before the end of a frame, its queue of one full. -/
def fullDec : Dec := { decP3 .readCkB [0x01#8, 0x02#8] 0x0C#8 0x35#8 0x0C#8 with
  results := [resultF], params := { maxPayload := some 1#16, queueCap := some 1 } }

/-- The same a byte earlier, in `ReadLenHi`, where a length of 2 exceeds the limit of 1. -/
def fullDecLenHi : Dec := { fullDec with stage := .readLenHi, payload := [] }

theorem witness_FullQueueHoldsBytesBack :
    ((withDec fullDec).decs[0]? = some fullDec ∧ ¬Room fullDec 1 ∧ fullDec.stage = .readCkB) ∧
    (withDec fullDecLenHi).decs[0]? = some fullDecLenHi ∧ ¬Room fullDecLenHi 1 ∧ fullDecLenHi.stage = .readLenHi ∧
    fullDecLenHi.length.toNat < 256 ∧
    Exceeds fullDecLenHi.params (fullDecLenHi.length.toNat + 256 * (0#8 : Byte).toNat) := by
  simp [Room, Exceeds, withDec, fullDecLenHi, fullDec, decP3]

/-- The chunk's clause: the empty piece before is consumed, the piece after is held back. -/
theorem witness_FullQueueHoldsBytesBack_chunk :
    exec (.decFeed 0 []) (withDec fullDec) = .next (((withDec fullDec).setDec 0 fullDec).answer .done) ∧
    exec (.decFeed 0 [0x35#8, 0xB5#8]) ((withDec fullDec).setDec 0 fullDec) =
      .next ((withDec fullDec).answer (.heldBack [0x35#8, 0xB5#8])) := ⟨rfl, rfl⟩

theorem witness_StepTakesAListedTransition :
    (withDec (decP3 .readPayload [0x01#8] 0x0A#8 0x29#8 0#8)).decs[0]? = some (decP3 .readPayload [0x01#8] 0x0A#8 0x29#8 0#8) ∧
    (decP3 .readPayload [0x01#8] 0x0A#8 0x29#8 0#8).wf = true ∧ Room (decP3 .readPayload [0x01#8] 0x0A#8 0x29#8 0#8) 1 :=
  ⟨by decide, by decide, by simp [Room, decP3, plain, DecoderParams.specDefault]⟩

/-- The ten bytes of `G` produce one result, and the queue holds one. -/
theorem witness_FeedIsItsSteps :
    (withDec (idleDec { plain with queueCap := some 1 } [])).decs[0]? = some (idleDec { plain with queueCap := some 1 } []) ∧
    (idleDec { plain with queueCap := some 1 } []).wf = true ∧
    exec (.decFeed 0 frameG) ((withDec (idleDec { plain with queueCap := some 1 } [])).setDec 0
        (unbounded (idleDec { plain with queueCap := some 1 } []))) =
      .next (((withDec (idleDec { plain with queueCap := some 1 } [])).setDec 0 (idleDec plain [resultG])).answer .done) ∧
    Fits { plain with queueCap := some 1 } (idleDec plain [resultG]) :=
  ⟨by decide, by decide, rfl, by simp [Fits, idleDec]⟩

/-- Split between the two sync bytes, with a queue that holds one result. -/
theorem witness_ChunkingIsInvisible :
    (withDec (idleDec { plain with queueCap := some 1 } [])).decs[0]? = some (idleDec { plain with queueCap := some 1 } []) ∧
    exec (.decFeed 0 [0xB5#8]) (withDec (idleDec { plain with queueCap := some 1 } [])) =
      .next (((withDec (idleDec { plain with queueCap := some 1 } [])).setDec 0
        { idleDec { plain with queueCap := some 1 } [] with stage := .seekSync2 }).answer .done) ∧
    exec (.decFeed 0 ([0xB5#8] ++ frameG.drop 1)) (withDec (idleDec { plain with queueCap := some 1 } [])) =
      .next (((withDec (idleDec { plain with queueCap := some 1 } [])).setDec 0
        (idleDec { plain with queueCap := some 1 } [resultG])).answer .done) :=
  ⟨by decide, rfl, rfl⟩

theorem witness_PollingDrainsInOrder :
    (withDec (idleDec plain [resultF, resultG])).decs[0]? = some (idleDec plain [resultF, resultG]) ∧
    (idleDec plain [resultF, resultG]).results = resultF :: [resultG] ∧
    (withDec (idleDec plain [])).decs[0]? = some (idleDec plain []) ∧ (idleDec plain []).results = [] := by decide

/-- Noise that ends in 0xB5 (V29). -/
theorem noSyncPair_11_B5 : NoSyncPair [0x11#8, 0xB5#8] := by
  intro i
  match i with
  | 0 => simp
  | 1 => simp
  | n + 2 => simp

theorem witness_NoiseYieldsNothing :
    State.reset.decs[0]? = some (idleDec plain []) ∧ NoSyncPair [0x11#8, 0xB5#8] := ⟨by decide, noSyncPair_11_B5⟩

theorem witness_WholeFrameGivesOneResult :
    let p : DecoderParams := { maxPayload := some 2#16, queueCap := some 1 }
    (withDec (idleDec p [])).decs[0]? = some (idleDec p []) ∧ [(0x01#8 : Byte), 0x02#8].length ≤ 65535 ∧
      ¬Exceeds p [(0x01#8 : Byte), 0x02#8].length ∧ Room (idleDec p []) 1 :=
  ⟨by decide, by decide, by simp [Exceeds], by simp [Room, idleDec]⟩

theorem witness_OversizedFrameCostsSixBytes :
    let p : DecoderParams := { maxPayload := some 1#16, queueCap := some 1 }
    (withDec (idleDec p [])).decs[0]? = some (idleDec p []) ∧ Exceeds p (2#16 : Half).toNat ∧ Room (idleDec p []) 1 :=
  ⟨by decide, by simp [Exceeds], by simp [Room, idleDec]⟩

/-- The frame `G` under a limit of 2, and, for the second clause, under a limit of 1. -/
theorem witness_EncodedFrameRoundTrips :
    let p : DecoderParams := { maxPayload := some 2#16, queueCap := some 1 }
    let p' : DecoderParams := { maxPayload := some 1#16, queueCap := some 1 }
    ((withDec (idleDec p [])).decs[0]? = some (idleDec p []) ∧ p.wf = true ∧
      [(0x01#8 : Byte), 0x02#8].length ≤ 65535 ∧ ¬Exceeds p [(0x01#8 : Byte), 0x02#8].length) ∧
    (withDec (idleDec p' [])).decs[0]? = some (idleDec p' []) ∧ p'.wf = true ∧
      (2#16 : Half).toNat = [(0x01#8 : Byte), 0x02#8].length ∧ Exceeds p' [(0x01#8 : Byte), 0x02#8].length :=
  ⟨⟨by decide, by decide, by decide, by simp [Exceeds]⟩, by decide, by decide, by decide, by simp [Exceeds]⟩

theorem witness_NoiseBeforeAFrameIsInvisible :
    State.reset.decs[0]? = some (idleDec plain []) ∧ NoSyncPair [0x11#8, 0xB5#8] ∧ ([] : List Byte).length ≤ 65535 :=
  ⟨by decide, noSyncPair_11_B5, by decide⟩

/-- V33: bit 2 of the last byte of `G` flipped; and V31, its class byte. -/
theorem witness_CorruptedFrameIsReportedAndTheNextDecoded :
    State.reset.decs[0]? = some (idleDec plain []) ∧ Room (idleDec plain []) 2 ∧
    ¬Exceeds plain [(0x01#8 : Byte), 0x02#8].length ∧ 9 ∉ [0, 1, 4, 5] ∧ 2 ∉ [0, 1, 4, 5] ∧
    (encoded 0x06#8 0x01#8 [0x01#8, 0x02#8])[9]? = some 0x35#8 ∧ (0x31#8 : Byte) ≠ 0x35#8 ∧
    (encoded 0x06#8 0x01#8 [0x01#8, 0x02#8])[2]? = some 0x06#8 ∧ (0x07#8 : Byte) ≠ 0x06#8 :=
  ⟨by decide, by simp [Room, idleDec, plain, DecoderParams.specDefault],
   by simp [Exceeds, plain, DecoderParams.specDefault], by decide, by decide, by decide, by decide, by decide, by decide⟩

/-- A sync byte, or another, as the last payload byte. -/
theorem witness_PayloadBytesAreNotControl :
    let d := decP3 .readPayload [0x01#8] 0x0A#8 0x29#8 0#8
    (withDec d).decs[0]? = some d ∧ d.wf = true ∧ d.stage = .readPayload ∧
      [(0xB5#8 : Byte)].length = [(0x02#8 : Byte)].length ∧
      d.payload.length + [(0xB5#8 : Byte)].length ≤ d.length.toNat := by decide

theorem witness_DecoderReturnsToSeeking :
    (withDec { idleDec plain [] with stage := .readClass }).decs[0]? = some { idleDec plain [] with stage := .readClass } ∧
    Room (idleDec plain []) 1 ∧ 6 + 65535 ≤ (List.replicate 65541 (0#8 : Byte)).length := by
  rw [List.length_replicate]
  exact ⟨by decide, by simp [Room, idleDec, plain, DecoderParams.specDefault], by decide⟩

/-- Of the three statements about any operation's next state: a poll, which writes a Decoder, and a take, which writes the
Encoder. -/
theorem witness_OperationsChangeTheirOwnInstanceOnly :
    exec (.decPoll 1) State.reset = .next (State.reset.answer (.result none)) ∧
    exec .encNext State.reset = .next (State.reset.answer (.byte none)) := ⟨rfl, rfl⟩

theorem witness_ParametersAreFixedForLife :
    exec (.decReset 1) State.reset = .next (State.reset.answer .done) := rfl

theorem witness_IndependentOperationsCommute :
    Independent (.decStep 0 0xB5#8) (.decStep 1 0x00#8) ∧ Independent (.ckUpdate 1#8) .encNext ∧
    exec (.ckUpdate 1#8) State.reset = .next ((ckAt 1#8 1#8).answer .done) ∧
    exec .encNext ((ckAt 1#8 1#8).answer .done) = .next (((ckAt 1#8 1#8).answer .done).answer (.byte none)) :=
  ⟨by simp [Independent, usesCk, usesEnc, decoderOf], by simp [Independent, usesCk, usesEnc, decoderOf], rfl, rfl⟩

theorem witness_ResultsAreNeverLostOrReordered :
    exec (.decPoll 0) (withDec (idleDec plain [resultF])) =
      .next (((withDec (idleDec plain [resultF])).setDec 0 (idleDec plain [])).answer (.result (some resultF))) ∧
    (withDec (idleDec plain [resultF])).decs[0]? = some (idleDec plain [resultF]) := ⟨rfl, rfl⟩

theorem witness_CreatedBlockMeetsTheInvariant :
    ({ decoders := [{ maxPayload := some 0#16, queueCap := some 1 }] } : Config).wf = true := by decide

/-- The invariant holds at reset, and in the middle of a frame on both sides. -/
theorem witness_EveryStepKeepsTheInvariant :
    ({ withDec (decP3 .readPayload [0x01#8] 0x0A#8 0x29#8 0#8) with enc := encP2 .payload 1#16 0x0A#8 0x29#8 } : State).Inv ∧
    step State.reset = .next State.reset := ⟨⟨by decide, by decide⟩, rfl⟩

/-- A state in which something is presented, and one in which what is presented is no operation. -/
theorem witness_NoOperationStopsAWellFormedBlock :
    ((withDec (idleDec plain [resultG])).present (.op 0 [0x33#8])).Inv ∧
    ((withDec (idleDec plain [resultG])).present (.op 0 [0x40#8])).Inv := ⟨⟨by decide, by decide⟩, ⟨by decide, by decide⟩⟩

theorem witness_UnselectedArmsAndMissingDecodersAreRefused :
    State.reset.decs[0]? = some (Dec.reset plain) ∧ (Dec.reset plain).stage ≠ .readCkB ∧
    decode (.rxWord 0 (rxWordOf .readCkB 0x35#8)) = .ok (.rxReadCkB 0 0x35#8) ∧ State.reset.enc.stage ≠ .ckA ∧
    decoderOf (.decPoll 2) = some 2 ∧ State.reset.decs[2]? = none :=
  ⟨by decide, by decide, rfl, by decide, by decide, by decide⟩

end Sys2Proof.Tests
end

section
/-! ## What the decoder answers with, by kind of selector

An operation's code and a frame's bytes never decode to an arm of a per-byte step; only the 12-bit and 4-bit words do (R63, R64,
R65, R72). -/

namespace Sys2Proof

theorem onlyUnit_eq_ok {k : Nat} {r : Except DecodeError Instr} {i : Instr} :
    onlyUnit k r = .ok i ↔ k = 0 ∧ r = .ok i := by
  unfold onlyUnit
  split <;> simp_all

theorem operands0_eq_ok {op : Byte} {args : List Byte} {j i : Instr} :
    operands0 op args j = .ok i ↔ args = [] ∧ j = i := by
  unfold operands0
  split <;> simp_all

theorem operands1_eq_ok {op : Byte} {args : List Byte} {f : Byte → Instr} {i : Instr} :
    operands1 op args f = .ok i ↔ ∃ x, args = [x] ∧ f x = i := by
  unfold operands1
  split <;> simp_all

theorem operands2_eq_ok {op : Byte} {args : List Byte} {f : Byte → Byte → Instr} {i : Instr} :
    operands2 op args f = .ok i ↔ ∃ p q, args = [p, q] ∧ f p q = i := by
  unfold operands2
  split <;> simp_all

theorem operands2Seq_eq_ok {op : Byte} {args : List Byte} {f : Byte → Byte → List Byte → Instr} {i : Instr} :
    operands2Seq op args f = .ok i ↔ ∃ p q rest, args = p :: q :: rest ∧ f p q rest = i := by
  unfold operands2Seq
  split <;> simp_all

/-- The rows of formats `RXBYTE` and `TXBYTE` (R72): the arms of `DEC.STEP` and `ENC.NEXT`. -/
def Instr.isArm (i : Instr) : Bool :=
  match encode i with
  | .rxWord _ _ | .txWord _ => true
  | .op _ _ | .frame _ _ => false

theorem isArm_of_decode_op {k : Nat} {bytes : List Byte} {i : Instr} (h : decode (.op k bytes) = .ok i) :
    i.isArm = false := by
  cases bytes with
  | nil => cases h
  | cons op args =>
    simp only [decode, decodeOp] at h
    split at h <;> simp only [onlyUnit_eq_ok, operands0_eq_ok, operands1_eq_ok, operands2_eq_ok, operands2Seq_eq_ok,
      Except.ok.injEq, reduceCtorEq] at h
    case h_1 => obtain ⟨-, rfl⟩ := h; rfl
    case h_2 | h_7 | h_8 => obtain ⟨-, _, _, _, -, rfl⟩ := h; rfl
    case h_3 | h_5 | h_9 => obtain ⟨-, -, rfl⟩ := h; rfl
    case h_4 => obtain ⟨-, _, -, rfl⟩ := h; rfl
    case h_6 => obtain ⟨-, _, _, -, rfl⟩ := h; rfl
    case h_10 | h_13 => obtain ⟨-, rfl⟩ := h; rfl
    case h_11 => subst h; rfl
    case h_12 => obtain ⟨_, -, rfl⟩ := h; rfl

theorem isArm_of_decode_frame {k : Nat} {bytes : List Byte} {i : Instr} (h : decode (.frame k bytes) = .ok i) :
    i.isArm = false := by
  simp only [decode, decodeFrame] at h
  split at h
  · split at h
    · split at h
      · cases h; rfl
      · cases h
    · cases h
  · cases h

end Sys2Proof
end

section
/-! ## Progress of the Decoder and of the Encoder

`Dec.fieldsWf` alone is inductive, and rules out the one fault of `DEC.STEP` (R117): a payload being read is shorter than its
declared length, which fits the buffer. The induction over a chunk is stated once, for any property each byte keeps. -/

namespace Sys2Proof.Machine

/-- The bytes cause no fault, and the Decoder they leave, whether they were all consumed or not, meets `P`. -/
def RxOutcome.Keeps (P : Dec → Prop) : RxOutcome → Prop
  | .took d => P d
  | .held d _ => P d
  | .fault _ => False

/-- What every byte keeps, every chunk keeps (R109). -/
theorem Dec.feed_keeps_of_stepByte {P : Dec → Prop} (hstep : ∀ d x, P d → (d.stepByte x).Keeps P)
    {d : Dec} (hd : P d) (bytes : List Byte) : (d.feed bytes).Keeps P := by
  induction bytes generalizing d with
  | nil => exact hd
  | cons x rest ih =>
    have hx := hstep d x hd
    simp only [Dec.feed]
    cases h : d.stepByte x with
    | took d' => rw [h] at hx; exact ih hx
    | held d' r => rw [h] at hx; exact hx
    | fault r => rw [h] at hx; exact hx

/-- The canonical idle state, with any queue (R29). -/
theorem Dec.reset_fieldsWf (p : DecoderParams) (q : List Result) :
    ({ Dec.reset p with results := q } : Dec).fieldsWf = true := by simp [Dec.fieldsWf, Dec.reset]

/-- R116: a length that is not refused fits the buffer, which is still empty. -/
theorem Dec.readLenHi_keeps_fieldsWf {d : Dec} (x : Byte) (hs : d.stage = .readLenHi) (h : d.fieldsWf = true) :
    (d.readLenHi x).Keeps (·.fieldsWf = true) := by
  rw [Dec.readLenHi_eq]
  split
  · split
    · exact Dec.reset_fieldsWf _ _
    · exact h
  · next hmax =>
    have hcap := le_bufferCapacity_of_not_exceedsMax (Bool.eq_false_iff.mpr hmax)
    obtain ⟨-, hp, hck⟩ : d.length.toNat < 256 ∧ d.payload = [] ∧ d.rxCkA = 0#8 := by
      simpa [Dec.fieldsWf, hs] using h
    cases hpos : lengthPositive (assembledLength d.length x) with
    | true =>
      have hlt : 0 < (assembledLength d.length x).toNat := by simpa [lengthPositive] using hpos
      simp [RxOutcome.Keeps, Dec.fieldsWf, hp, hck, hcap, hlt]
    | false =>
      have hzero : (assembledLength d.length x).toNat = 0 := by simpa [lengthPositive] using hpos
      simp [RxOutcome.Keeps, Dec.fieldsWf, hp, hck, hzero]

/-- R117: there is room for the byte, and after it either more is to come or the payload is complete. -/
theorem Dec.readPayload_keeps_fieldsWf {d : Dec} (x : Byte) (hs : d.stage = .readPayload) (h : d.fieldsWf = true) :
    (d.readPayload x).Keeps (·.fieldsWf = true) := by
  obtain ⟨hlt, hcap, hck⟩ : d.payload.length < d.length.toNat ∧
      d.length.toNat ≤ bufferCapacity d.params ∧ d.rxCkA = 0#8 := by simpa [Dec.fieldsWf, hs] using h
  rw [Dec.readPayload_eq x (by omega)]
  cases hlast : payloadCompletes d with
  | true =>
    have hlen : d.payload.length + 1 = d.length.toNat := by simpa [payloadCompletes] using hlast
    simp [RxOutcome.Keeps, Dec.fieldsWf, hlen, hcap, hck]
  | false =>
    have hmore : d.payload.length + 1 < d.length.toNat := by
      have : d.payload.length + 1 ≠ d.length.toNat := by simpa [payloadCompletes] using hlast
      omega
    simp [RxOutcome.Keeps, Dec.fieldsWf, hs, hmore, hcap, hck]

theorem Dec.readCkB_keeps_fieldsWf {d : Dec} (x : Byte) (h : d.fieldsWf = true) :
    (d.readCkB x).Keeps (·.fieldsWf = true) := by
  rw [Dec.readCkB_eq]
  split
  · exact Dec.reset_fieldsWf _ _
  · exact h

/-- No byte faults a Decoder whose fields are well formed, and they stay so (R25, R28, R110). -/
theorem Dec.stepByte_keeps_fieldsWf (d : Dec) (x : Byte) (h : d.fieldsWf = true) :
    (d.stepByte x).Keeps (·.fieldsWf = true) := by
  rw [Dec.stepByte_eq]
  cases hs : d.stage with
  | readLenHi => exact Dec.readLenHi_keeps_fieldsWf x hs h
  | readPayload => exact Dec.readPayload_keeps_fieldsWf x hs h
  | readCkB => exact Dec.readCkB_keeps_fieldsWf x h
  | seekSync1 =>
    simp only [RxOutcome.Keeps]
    split
    · simpa only [Dec.fieldsWf, hs] using h
    · exact h
  | seekSync2 =>
    simp only [RxOutcome.Keeps]
    split
    · simpa only [Dec.fieldsWf, hs] using h
    · split
      · exact h
      · simpa only [Dec.fieldsWf, hs] using h
  | readLenLo =>
    have hx : (zext16 x).toNat < 256 := by
      have := x.isLt
      simp only [zext16, BitVec.toNat_setWidth]
      omega
    simp_all [RxOutcome.Keeps, Dec.fieldsWf]
  | readClass | readId | readCkA => simp_all [RxOutcome.Keeps, Dec.fieldsWf]

theorem Dec.feed_keeps_fieldsWf {d : Dec} (h : d.fieldsWf = true) (bytes : List Byte) :
    (d.feed bytes).Keeps (·.fieldsWf = true) :=
  Dec.feed_keeps_of_stepByte Dec.stepByte_keeps_fieldsWf h bytes

/-- Bytes held back are no stop: a next state all the same (log entry 8). -/
theorem State.settle_next_of_keeps {P : Dec → Prop} {o : RxOutcome} (h : o.Keeps P) (s : State) (k : Nat) :
    ∃ t, s.settle k o = .next t := by
  cases o with
  | took d => exact ⟨_, rfl⟩
  | held d rest => exact ⟨_, rfl⟩
  | fault r => exact h.elim

/-- R17 (b), R101: in stage `Payload` the index is that of a byte of the payload, so the take reads one. -/
theorem Enc.take_ok {e : Enc} (h : e.wf = true) : ∃ v e', e.take = .ok (v, e') := by
  unfold Enc.take
  cases hs : e.stage with
  | payload =>
    obtain ⟨⟨hlen, hidx⟩, -⟩ : (e.payload.length = e.length.toNat ∧ e.index.toNat < e.length.toNat) ∧
        (e.a, e.b) = fletcher e.emitted := by simpa [Enc.wf, Enc.indexWf, hs] using h
    have hread : memRead e.payload e.index.toNat = some (e.payload[e.index.toNat]'(by omega)) :=
      List.getElem?_eq_getElem _
    simp only [Enc.takePayload, hread]
    exact ⟨_, _, rfl⟩
  | idle | sync1 | sync2 | cls | id | lenLo | lenHi | ckA | ckB => exact ⟨_, _, rfl⟩

/-! ## What the invariant gives for one sub-block -/

theorem State.Inv.dec_fieldsWf {s : State} (h : s.Inv) {k : Nat} {d : Dec} (hd : s.decs[k]? = some d) :
    d.fieldsWf = true := by
  have hwf := List.all_eq_true.mp h.2 d (List.mem_of_getElem? hd)
  simp only [Dec.wf, Bool.and_eq_true] at hwf
  exact hwf.1.1.2

theorem State.Inv.take_next {s : State} (h : s.Inv) : ∃ t, s.handOut s.enc.take = .next t := by
  obtain ⟨v, e, he⟩ := Enc.take_ok h.1
  exact ⟨_, by rw [he]; rfl⟩

theorem State.Inv.feed_next {s : State} (h : s.Inv) {k : Nat} {d : Dec} (hd : s.decs[k]? = some d)
    (bytes : List Byte) : ∃ t, s.settle k (d.feed bytes) = .next t :=
  State.settle_next_of_keeps (Dec.feed_keeps_fieldsWf (h.dec_fieldsWf hd) bytes) s k

theorem State.Inv.stepByte_next {s : State} (h : s.Inv) {k : Nat} {d : Dec} (hd : s.decs[k]? = some d)
    (x : Byte) : ∃ t, s.settle k (d.stepByte x) = .next t :=
  State.settle_next_of_keeps (Dec.stepByte_keeps_fieldsWf d x (h.dec_fieldsWf hd)) s k

/-! ## The arm that a stage selects -/

/-- The arm of the Encoder's stage is `ENC.NEXT` (R94). -/
theorem exec_txArm_stage (s : State) : exec (txArm s.enc.stage) s = s.handOut s.enc.take := by
  cases hs : s.enc.stage <;> simp only [Enc.take, hs] <;> exact if_pos hs

theorem decode_txWord_code (st : EncStage) : decode (.txWord st.code) = .ok (txArm st) := by
  simp [decode, decodeTx]

/-- The word formed from a Decoder's stage and a byte decodes to an arm, and that arm is `DEC.STEP` (R64, R110). -/
theorem exec_rxArm_stage {s : State} {k : Nat} {d : Dec} (hd : s.decs[k]? = some d) (x : Byte) :
    ∃ i, decode (.rxWord k (rxWordOf d.stage x)) = .ok i ∧ exec i s = s.settle k (d.stepByte x) := by
  rw [Laws.RoundTrip.decode_rxWordOf]
  refine ⟨_, rfl, ?_⟩
  have harm : ∀ {st : DecStage} {selected : Bool} (arm : Dec → RxOutcome), d.stage = st → selected = true →
      s.onArm k st selected arm = s.settle k (arm d) := fun _ hst hsel => hst ▸ State.onArm_selected hd hsel
  cases hs : d.stage <;> simp only [Dec.stepByte, hs]
  case seekSync1 =>
    split
    · exact harm _ hs rfl
    · exact harm _ hs (by simpa)
  case seekSync2 =>
    split
    · exact harm _ hs rfl
    · split
      · exact harm _ hs rfl
      · exact harm _ hs (by simp_all)
  all_goals exact harm _ hs rfl

end Sys2Proof.Machine
end

section
/-! ## No operation stops a well-formed block -/

namespace Sys2Proof.Machine

open Sys2Proof.Claim

theorem State.onDec_next_or_missing {s : State} {k : Nat} {f : Dec → Host.Outcome State Fault Refusal}
    (h : ∀ d, s.decs[k]? = some d → ∃ t, f d = .next t) :
    (∃ t, s.onDec k f = .next t) ∨ s.decs[k]? = none ∧ s.onDec k f = .refused (.noSuchDecoder k) := by
  cases hd : s.decs[k]? with
  | none => exact .inr ⟨rfl, State.onDec_none hd⟩
  | some d => rw [State.onDec_some hd]; exact .inl (h d hd)

/-- `ENC.START` has a next state also where it turns the caller away (R182; log entry 7). -/
theorem execEncStart_next (cls id : Byte) (payload : List Byte) (s : State) :
    ∃ t, execEncStart cls id payload s = .next t := by
  unfold execEncStart
  split
  · exact ⟨_, rfl⟩
  · split <;> exact ⟨_, rfl⟩

/-- Every operation, and every frame on the stream, has a next state or names no Decoder (R6, R154). -/
theorem exec_next_or_missing {s : State} (hs : s.Inv) {i : Instr} (hi : i.isArm = false) :
    (∃ t, exec i s = .next t) ∨
      ∃ k, decoderOf i = some k ∧ s.decs[k]? = none ∧ exec i s = .refused (.noSuchDecoder k) := by
  cases i with
  | ckCompute | ckVerify | ckClear | ckUpdate | ckRead | ckMatch | encEncode => exact .inl ⟨_, rfl⟩
  | encStart cls id payload => exact .inl (execEncStart_next cls id payload s)
  | encNext => exact .inl hs.take_next
  | decReset k => exact (State.onDec_next_or_missing fun _ _ => ⟨_, rfl⟩).imp_right fun h => ⟨k, rfl, h⟩
  | decFeed k bytes =>
    exact (State.onDec_next_or_missing fun _ hd => hs.feed_next hd bytes).imp_right fun h => ⟨k, rfl, h⟩
  | decStep k x =>
    exact (State.onDec_next_or_missing fun _ hd => hs.stepByte_next hd x).imp_right fun h => ⟨k, rfl, h⟩
  | decPoll k =>
    exact (State.onDec_next_or_missing fun _ _ => by split <;> exact ⟨_, rfl⟩).imp_right fun h => ⟨k, rfl, h⟩
  | frame k cls id payload ckA ckB =>
    exact (State.onDec_next_or_missing fun _ hd => hs.feed_next hd _).imp_right fun h => ⟨k, rfl, h⟩
  | _ => cases hi

/-! ### One step, by what is presented -/

section
variable {s : State} {r : Request} {rest : List Request} (hr : s.requests = r :: rest)
include hr

theorem step_of_fetch_error {why : Refusal} (hf : fetch s r = .error why) : step s = .refused why := by
  simp only [step, hr, hf]

theorem step_of_decode_error {sel : Selector} {why : DecodeError} (hf : fetch s r = .ok sel)
    (hd : decode sel = .error why) : step s = .refused (.undecodable why) := by
  simp only [step, hr, hf, hd]

theorem step_of_decode_ok {sel : Selector} {i : Instr} (hf : fetch s r = .ok sel) (hd : decode sel = .ok i) :
    step s = exec i { s with requests := rest } := by
  simp only [step, hr, hf, hd]

/-- A stream byte for a Decoder that exists is `DEC.STEP` (R64, R110). -/
theorem step_of_rxByte {k : Nat} {x : Byte} {d : Dec} (hx : r = .rxByte k x) (hd : s.decs[k]? = some d) :
    step s = { s with requests := rest }.settle k (d.stepByte x) := by
  obtain ⟨i, hi, hexec⟩ := exec_rxArm_stage (s := { s with requests := rest }) hd x
  rw [step_of_decode_ok hr (by simp only [hx, fetch, hd]) hi, hexec]

/-- A take is `ENC.NEXT` (R65, R94). -/
theorem step_of_txTake (ht : r = .txTake) :
    step s = { s with requests := rest }.handOut s.enc.take := by
  rw [step_of_decode_ok hr (by rw [ht]; rfl) (decode_txWord_code s.enc.stage)]
  exact exec_txArm_stage { s with requests := rest }

/-- An operation or a frame, whose selector decodes to no arm, runs, or is refused for want of a meaning or of a Decoder. -/
theorem step_next_or_refused {sel : Selector} (hs : s.Inv) (hf : fetch s r = .ok sel)
    (harm : ∀ i, decode sel = .ok i → i.isArm = false) :
    (∃ t, step s = .next t) ∨
      (∃ sel why, fetch s r = .ok sel ∧ decode sel = .error why ∧ step s = .refused (.undecodable why)) ∨
      ∃ k, ((∃ x, r = .rxByte k x) ∨ ∃ sel i, fetch s r = .ok sel ∧ decode sel = .ok i ∧ decoderOf i = some k) ∧
        s.decs[k]? = none ∧ step s = .refused (.noSuchDecoder k) := by
  cases hd : decode sel with
  | error why => exact .inr (.inl ⟨sel, why, hf, hd, step_of_decode_error hr hf hd⟩)
  | ok i =>
    rw [step_of_decode_ok hr hf hd]
    have hrun : State.Inv { s with requests := rest } := hs
    obtain hnext | ⟨k, hk, hnone, hexec⟩ := exec_next_or_missing hrun (harm i hd)
    · exact .inl hnext
    · exact .inr (.inr ⟨k, .inr ⟨sel, i, hf, hd, hk⟩, hnone, hexec⟩)

end

/-- Settles O44, by what is presented: a byte for a Decoder and a take select their own arms, which cannot fault under the
invariant; an operation or a frame decodes to no arm, and is refused only for want of a meaning or of a Decoder. -/
theorem noOperationStopsAWellFormedBlock : Obligations.NoOperationStopsAWellFormedBlock := by
  unfold Obligations.NoOperationStopsAWellFormedBlock
  intro s hs
  cases hr : s.requests with
  | nil => exact .inl ⟨s, by simp only [step, hr]⟩
  | cons r rest =>
    have hrun : State.Inv { s with requests := rest } := hs
    cases r with
    | rxByte k x =>
      cases hd : s.decs[k]? with
      | none =>
        have hf : fetch s (.rxByte k x) = .error (.noSuchDecoder k) := by simp only [fetch, hd]
        exact .inr ⟨_, rest, rfl, .inr ⟨k, .inl ⟨x, rfl⟩, hd, step_of_fetch_error hr hf⟩⟩
      | some d =>
        rw [step_of_rxByte hr rfl hd]
        exact .inl (hrun.stepByte_next hd x)
    | txTake =>
      rw [step_of_txTake hr rfl]
      exact .inl hrun.take_next
    | op k bytes =>
      exact (step_next_or_refused hr hs rfl fun _ hi => isArm_of_decode_op hi).imp_right fun h => ⟨_, rest, rfl, h⟩
    | frame k bytes =>
      exact (step_next_or_refused hr hs rfl fun _ hi => isArm_of_decode_frame hi).imp_right fun h => ⟨_, rest, rfl, h⟩

end Sys2Proof.Machine
end

section
/-! ## What an operation can do

Every instruction with a next state adds one answer and beyond that writes the registers of one sub-block at most: the `ck` pair, the
Encoder, or one Decoder (R13, R51). `exec_effect` says so once for all 36 instructions; what no operation does is read off it. -/

namespace Sys2Proof.Machine

open Sys2Proof.Claim

/-- What the operation `i` can make of the Decoder `d` it acts on, number `k`. -/
inductive Dec.Move (i : Instr) (k : Nat) (d : Dec) : Dec → Prop
  | reset (hi : i = .decReset k) : Dec.Move i k d (Dec.reset d.params)
  | polled {r : Result} {rest : List Result} (hi : i = .decPoll k) (hq : d.results = r :: rest) :
      Dec.Move i k d { d with results := rest }
  | fed {d' : Dec} (bytes : List Byte) (h : d.feed bytes = .took d' ∨ ∃ rest, d.feed bytes = .held d' rest) :
      Dec.Move i k d d'

/-- What `ENC.NEXT` and `ENC.START` can make of the Encoder `e`. -/
inductive Enc.Move (e : Enc) : Enc → Prop
  | took {v : Option Byte} {e' : Enc} (h : e.take = .ok (v, e')) : Enc.Move e e'
  | latched (cls id : Byte) {payload : List Byte} (h : payload.length ≤ 65535) :
      Enc.Move e (Enc.latched cls id payload)

/-- What the operation `i` can make of the block `s`. -/
inductive Effect (i : Instr) (s : State) : State → Prop
  | answered (v : Answer) : Effect i s (s.answer v)
  | wroteCk (c : Ck) (v : Answer) (hi : writesCk i = true) : Effect i s ({ s with ck := c }.answer v)
  | movedEnc {e : Enc} (v : Answer) (hi : usesEnc i = true) (h : s.enc.Move e) :
      Effect i s ({ s with enc := e }.answer v)
  | movedDec {k : Nat} {d d' : Dec} (v : Answer) (hi : decoderOf i = some k) (hd : s.decs[k]? = some d)
      (h : d.Move i k d') : Effect i s ((s.setDec k d').answer v)

/-! ### The shared forms of the operations -/

/-- A chunk of one byte is `DEC.STEP` (R109). -/
theorem Dec.feed_singleton (d : Dec) (x : Byte) : d.feed [x] = d.stepByte x := by
  simp only [Dec.feed]
  cases h : d.stepByte x with
  | took d' => rfl
  | held d' rest =>
    obtain ⟨-, rfl, -⟩ := Dec.stepByte_held h
    rfl
  | fault r => rfl

section
variable {i : Instr} {s t : State}

theorem effect_of_feed {k : Nat} {d : Dec} (bytes : List Byte) (hi : decoderOf i = some k) (hd : s.decs[k]? = some d)
    (h : s.settle k (d.feed bytes) = .next t) : Effect i s t := by
  obtain ⟨d', ho, rfl⟩ | ⟨d', rest, ho, rfl⟩ := State.settle_eq_next h
  · exact .movedDec _ hi hd (.fed bytes (.inl ho))
  · exact .movedDec _ hi hd (.fed bytes (.inr ⟨rest, ho⟩))

/-- A selected arm is `DEC.STEP` of a byte, so it has the effect of a chunk of one byte. -/
theorem effect_of_onArm {k : Nat} {stage : DecStage} {selected : Bool} {arm : Dec → RxOutcome} (x : Byte)
    (hi : decoderOf i = some k) (h : s.onArm k stage selected arm = .next t)
    (harm : ∀ d : Dec, d.stage = stage → selected = true → arm d = d.stepByte x) : Effect i s t := by
  obtain ⟨d, hd, hs, hsel, h⟩ := State.onArm_eq_next h
  rw [harm d hs hsel, ← Dec.feed_singleton] at h
  exact effect_of_feed [x] hi hd h

theorem effect_of_take (hi : usesEnc i = true) (h : s.handOut s.enc.take = .next t) : Effect i s t := by
  obtain ⟨v, e, he, rfl⟩ := State.handOut_eq_next h
  exact .movedEnc _ hi (.took he)

theorem effect_of_onTake {stage : EncStage} {arm : Enc → TxOutcome} (hi : usesEnc i = true)
    (h : s.onTake stage arm = .next t) (harm : ∀ e : Enc, e.stage = stage → arm e = e.take) : Effect i s t := by
  obtain ⟨hs, h⟩ := State.onTake_eq_next h
  rw [harm _ hs] at h
  exact effect_of_take hi h

/-- `ENC.START` latches a payload that fits, or changes nothing (R90, R93, R182). -/
theorem effect_of_encStart {cls id : Byte} {payload : List Byte} (hi : usesEnc i = true)
    (h : execEncStart cls id payload s = .next t) : Effect i s t := by
  unfold execEncStart at h
  split at h
  · cases h; exact .answered _
  · split at h
    · cases h; exact .answered _
    · next hfit =>
      cases h
      exact .movedEnc _ hi (.latched cls id (by simpa [oversized] using hfit))

end

/-- Everything an instruction with a next state can do. -/
theorem exec_effect {i : Instr} {s t : State} (h : exec i s = .next t) : Effect i s t := by
  cases i with
  | ckCompute | ckVerify | ckRead | ckMatch | encEncode => cases h; exact .answered _
  | ckClear | ckUpdate => cases h; exact .wroteCk _ _ rfl
  | encStart cls id payload => exact effect_of_encStart rfl h
  | encNext => exact effect_of_take rfl h
  | decReset k =>
    obtain ⟨d, hd, h⟩ := State.onDec_eq_next h
    cases h
    exact .movedDec _ rfl hd (.reset rfl)
  | decFeed k bytes =>
    obtain ⟨d, hd, h⟩ := State.onDec_eq_next h
    exact effect_of_feed bytes rfl hd h
  | decStep k x =>
    obtain ⟨d, hd, h⟩ := State.onDec_eq_next h
    rw [← Dec.feed_singleton] at h
    exact effect_of_feed [x] rfl hd h
  | decPoll k =>
    obtain ⟨d, hd, h⟩ := State.onDec_eq_next h
    split at h
    · cases h; exact .answered _
    · next hq => cases h; exact .movedDec _ rfl hd (.polled rfl hq)
  | rxSeekSync1Hit k => exact effect_of_onArm sync1 rfl h fun d hs _ => by simp only [Dec.stepByte, hs, if_true]
  | rxSeekSync1Other k x =>
    refine effect_of_onArm x rfl h fun d hs hx => ?_
    have hx : x ≠ sync1 := bne_iff_ne.mp hx
    simp only [Dec.stepByte, hs, if_neg hx]
  | rxSeekSync2Hit k => exact effect_of_onArm sync2 rfl h fun d hs _ => by simp only [Dec.stepByte, hs, if_true]
  | rxSeekSync2Sync1 k =>
    refine effect_of_onArm sync1 rfl h fun d hs _ => ?_
    have hne : sync1 ≠ sync2 := by decide
    simp only [Dec.stepByte, hs, if_neg hne, if_true]
  | rxSeekSync2Other k x =>
    refine effect_of_onArm x rfl h fun d hs hx => ?_
    obtain ⟨h2, h1⟩ : x ≠ sync2 ∧ x ≠ sync1 := by simpa using hx
    simp only [Dec.stepByte, hs, if_neg h2, if_neg h1]
  | rxReadClass k x | rxReadId k x | rxReadLenLo k x | rxReadLenHi k x | rxReadPayload k x | rxReadCkA k x
  | rxReadCkB k x => exact effect_of_onArm x rfl h fun d hs _ => by simp only [Dec.stepByte, hs]
  | txIdle | txSync1 | txSync2 | txClass | txId | txLenLo | txLenHi | txPayload | txCkA | txCkB =>
    exact effect_of_onTake rfl h fun e he => by simp only [Enc.take, he]
  | frame k cls id payload ckA ckB =>
    obtain ⟨d, hd, h⟩ := State.onDec_eq_next h
    exact effect_of_feed _ rfl hd h

/-! ### What no operation does -/

/-- Settles O38, by the effect of the operation: only the one sub-block it acts on is written. -/
theorem operationsChangeTheirOwnInstanceOnly : Obligations.OperationsChangeTheirOwnInstanceOnly := by
  unfold Obligations.OperationsChangeTheirOwnInstanceOnly
  intro i s t h
  cases exec_effect h with
  | answered v => exact ⟨fun _ => rfl, fun _ => rfl, fun _ _ => rfl, rfl, v, rfl⟩
  | wroteCk c v hi => exact ⟨fun hn => by simp [hi] at hn, fun _ => rfl, fun _ _ => rfl, rfl, v, rfl⟩
  | movedEnc v hi => exact ⟨fun _ => rfl, fun hn => by simp [hi] at hn, fun _ _ => rfl, rfl, v, rfl⟩
  | movedDec v hi =>
    refine ⟨fun _ => rfl, fun _ => rfl, fun j hj => ?_, rfl, v, rfl⟩
    refine State.setDec_get_ne ?_ _
    rintro rfl
    exact hj hi

theorem Dec.Move.params_eq {i : Instr} {k : Nat} {d d' : Dec} (h : d.Move i k d') : d'.params = d.params := by
  cases h with
  | reset | polled => rfl
  | fed bytes h => exact (Dec.feed_keeps h).1

/-- A Decoder put back with its own parameters leaves the list of parameters as it was. -/
theorem State.setDec_map_params {s : State} {k : Nat} {d d' : Dec} (hd : s.decs[k]? = some d)
    (hp : d'.params = d.params) : (s.setDec k d').decs.map Dec.params = s.decs.map Dec.params := by
  have hmove : (s.setDec k d').decs.map Dec.params = (s.setDec k d).decs.map Dec.params := by
    simp only [State.setDec_decs, List.map_set, hp]
  rw [hmove, State.setDec_self hd]

/-- Settles O39: of all effects only a move of one Decoder writes the list of Decoders, and it keeps the parameters. -/
theorem parametersAreFixedForLife : Obligations.ParametersAreFixedForLife := by
  unfold Obligations.ParametersAreFixedForLife
  intro i s t h
  cases exec_effect h with
  | answered | wroteCk | movedEnc => rfl
  | movedDec v hi hd hmove => exact State.setDec_map_params hd hmove.params_eq

end Sys2Proof.Machine
end

section
/-! ## The Encoder keeps its invariant (R17)

Each take of a checksum-domain byte appends it to `Enc.emitted` and sums it, so the accumulators stay its checksum. -/

namespace Sys2Proof.Machine

theorem Enc.reset_wf : Enc.reset.wf = true := rfl

/-- The invariant while a frame is being handed out. -/
theorem Enc.wf_iff {e : Enc} (h : e.stage ≠ .idle) : e.wf = true ↔
    e.payload.length = e.length.toNat ∧ e.indexWf = true ∧ (e.a, e.b) = fletcher e.emitted := by
  simp [Enc.wf, h, and_assoc]

/-- R93: nothing has been handed out yet. -/
theorem Enc.latched_wf (cls id : Byte) {payload : List Byte} (h : payload.length ≤ 65535) :
    (Enc.latched cls id payload).wf = true :=
  (Enc.wf_iff (by simp [Enc.latched])).mpr ⟨(lengthField_toNat h).symm, rfl, rfl⟩

/-- The accumulators follow a byte handed out at the end of the checksum domain (R86, R94). -/
theorem Enc.sum_fletcher {e : Enc} {emitted : List Byte} (v : Byte) (h : (e.a, e.b) = fletcher e.emitted)
    (hv : emitted = e.emitted ++ [v]) : ((e.sum v).a, (e.sum v).b) = fletcher emitted := by
  rw [hv, fletcher_append_singleton, ← h, Enc.sum_ab]

/-- R100: the header is out; a payload follows unless it is empty. -/
theorem Enc.takeLenHi_wf {e e' : Enc} {v : Option Byte} (hs : e.stage = .lenHi) (hlen : e.payload.length = e.length.toNat)
    (hidx : e.index = 0#16) (hab : (e.a, e.b) = fletcher e.emitted) (h : e.takeLenHi = .ok (v, e')) :
    e'.wf = true := by
  cases h
  cases hpos : lengthPositive e.length with
  | true =>
    have hlt : 0 < e.length.toNat := by simpa [lengthPositive] using hpos
    refine (Enc.wf_iff (by simp)).mpr ⟨hlen, ?_, Enc.sum_fletcher _ hab ?_⟩
    · simpa [Enc.indexWf, hidx] using hlt
    · simp [Enc.emitted, Enc.header, hs, hidx]
  | false =>
    have hzero : e.length.toNat = 0 := by simpa [lengthPositive] using hpos
    have hnil : e.payload = [] := List.eq_nil_of_length_eq_zero (hlen.trans hzero)
    refine (Enc.wf_iff (by simp)).mpr ⟨hlen, ?_, Enc.sum_fletcher _ hab ?_⟩
    · simpa [Enc.indexWf, hidx] using (BitVec.eq_of_toNat_eq hzero).symm
    · simp [Enc.emitted, Enc.header, hs, hnil]

/-- R101: one more byte of the payload is out, and the index counts it. -/
theorem Enc.takePayload_wf {e e' : Enc} {v : Option Byte} (hs : e.stage = .payload)
    (hlen : e.payload.length = e.length.toNat) (hidx : e.index.toNat < e.length.toNat)
    (hab : (e.a, e.b) = fletcher e.emitted) (h : e.takePayload = .ok (v, e')) : e'.wf = true := by
  have hin : e.index.toNat < e.payload.length := by omega
  have hread : memRead e.payload e.index.toNat = some e.payload[e.index.toNat] := List.getElem?_eq_getElem hin
  have hem : e.emitted = e.header ++ e.payload.take e.index.toNat := by simp only [Enc.emitted, hs]
  have htake : e.payload.take (e.index.toNat + 1) =
      e.payload.take e.index.toNat ++ [e.payload[e.index.toNat]] := by simp
  have hnext : (e.index + 1#16).toNat = e.index.toNat + 1 := by
    have := e.length.isLt
    simp
    omega
  simp only [Enc.takePayload, hread] at h
  cases h
  cases hlast : lastPayloadByte e with
  | true =>
    have hend : e.index.toNat + 1 = e.length.toNat := by simpa [lastPayloadByte] using hlast
    have hall : e.payload.take (e.index.toNat + 1) = e.payload := List.take_of_length_le (by omega)
    refine (Enc.wf_iff (by simp)).mpr ⟨hlen, ?_, Enc.sum_fletcher _ hab ?_⟩
    · exact decide_eq_true (BitVec.eq_of_toNat_eq (hnext.trans hend))
    · rw [hem, List.append_assoc, ← htake, hall]
      rfl
  | false =>
    have hmore : e.index.toNat + 1 ≠ e.length.toNat := by simpa [lastPayloadByte] using hlast
    refine (Enc.wf_iff (by simp)).mpr ⟨hlen, ?_, Enc.sum_fletcher _ hab ?_⟩
    · simp only [Enc.indexWf, decide_eq_true_eq, hnext, Enc.sum_length, Bool.false_eq_true, if_false]
      omega
    · rw [hem, List.append_assoc, ← htake, ← hnext]
      rfl

/-- Every take keeps the Encoder's invariant (R94 to R104). -/
theorem Enc.take_wf {e e' : Enc} {v : Option Byte} (hwf : e.wf = true) (h : e.take = .ok (v, e')) : e'.wf = true := by
  by_cases hidle : e.stage = .idle
  · simp only [Enc.take, hidle] at h
    cases h
    exact hwf
  obtain ⟨hlen, hidx, hab⟩ := (Enc.wf_iff hidle).mp hwf
  cases hs : e.stage with
  | idle => exact absurd hs hidle
  | sync1 | sync2 | ckA =>
    simp only [Enc.take, hs] at h
    cases h
    simp only [Enc.indexWf, hs] at hidx
    refine (Enc.wf_iff (by simp)).mpr ⟨hlen, hidx, hab.trans ?_⟩
    simp [Enc.emitted, Enc.header, hs]
  | cls | id | lenLo =>
    simp only [Enc.take, hs] at h
    cases h
    simp only [Enc.indexWf, hs] at hidx
    refine (Enc.wf_iff (by simp)).mpr ⟨hlen, hidx, Enc.sum_fletcher _ hab ?_⟩
    simp [Enc.emitted, hs]
  | lenHi =>
    simp only [Enc.take, hs] at h
    exact Enc.takeLenHi_wf hs hlen (by simpa [Enc.indexWf, hs] using hidx) hab h
  | payload =>
    simp only [Enc.take, hs] at h
    exact Enc.takePayload_wf hs hlen (by simpa [Enc.indexWf, hs] using hidx) hab h
  | ckB =>
    simp only [Enc.take, hs] at h
    cases h
    exact Enc.reset_wf

theorem Enc.Move.wf {e e' : Enc} (h : e.Move e') (hwf : e.wf = true) : e'.wf = true := by
  cases h with
  | took h => exact Enc.take_wf hwf h
  | latched cls id h => exact Enc.latched_wf cls id h

end Sys2Proof.Machine
end

section
/-! ## A Decoder keeps its invariant (R25, R26, R28, R30)

The fields are kept by `Dec.stepByte_keeps_fieldsWf`. Here the rest: a byte of the checksum domain is appended to `Dec.consumed` and
summed, and the result that ends a frame is well formed and fits the queue. -/

namespace Sys2Proof.Machine

theorem Dec.wf_iff {d : Dec} : d.wf = true ↔
    d.params.wf = true ∧ d.fieldsWf = true ∧ (d.a, d.b) = fletcher d.consumed ∧ d.queueWf = true := by
  simp [Dec.wf, and_assoc]

theorem Dec.queueWf_iff {d : Dec} : d.queueWf = true ↔
    (∀ r ∈ d.results, r.wf d.params = true) ∧ ∀ c, d.params.queueCap = some c → d.results.length ≤ c := by
  unfold Dec.queueWf
  cases d.params.queueCap <;> simp

/-- A Decoder in the canonical idle state is well formed where its queue is. -/
theorem Dec.idle_wf {p : DecoderParams} {q : List Result} (hp : p.wf = true)
    (hq : ({ Dec.reset p with results := q } : Dec).queueWf = true) : ({ Dec.reset p with results := q } : Dec).wf = true :=
  Dec.wf_iff.mpr ⟨hp, Dec.reset_fieldsWf p q, rfl, hq⟩

theorem Dec.reset_wf {p : DecoderParams} (hp : p.wf = true) : (Dec.reset p).wf = true :=
  Dec.idle_wf hp (Dec.queueWf_iff.mpr ⟨by simp [Dec.reset], by simp [Dec.reset]⟩)

theorem Dec.poll_wf {d : Dec} {r : Result} {rest : List Result} (h : d.wf = true) (hq : d.results = r :: rest) :
    ({ d with results := rest } : Dec).wf = true := by
  obtain ⟨hp, hf, hab, hqueue⟩ := Dec.wf_iff.mp h
  obtain ⟨hres, hcap⟩ := Dec.queueWf_iff.mp hqueue
  refine Dec.wf_iff.mpr ⟨hp, hf, hab, Dec.queueWf_iff.mpr ⟨fun r' hr' => ?_, fun c hc => ?_⟩⟩
  · exact hres r' (hq ▸ List.mem_cons_of_mem r hr')
  · have hle := hcap c hc
    rw [hq, List.length_cons] at hle
    exact Nat.le_of_succ_le hle

/-- The end of a frame: a well-formed result goes into a queue that has room for it (R119). -/
theorem Dec.conclude_wf {d : Dec} {r : Result} (h : d.wf = true) (hroom : d.hasRoom = true) (hr : r.wf d.params = true) :
    ({ Dec.reset d.params with results := d.results ++ [r] } : Dec).wf = true := by
  obtain ⟨hp, -, -, hqueue⟩ := Dec.wf_iff.mp h
  obtain ⟨hres, -⟩ := Dec.queueWf_iff.mp hqueue
  refine Dec.idle_wf hp (Dec.queueWf_iff.mpr ⟨fun r' hr' => ?_, fun c hc => ?_⟩)
  · obtain hold | rfl := List.mem_append.mp hr' |>.imp_right List.mem_singleton.mp
    · exact hres r' hold
    · exact hr
  · have hc : d.params.queueCap = some c := hc
    have hlt : d.results.length < c := by simpa [Dec.hasRoom, hc] using hroom
    simpa using hlt

@[simp] theorem lo8_zext16 (x : Byte) : lo8 (zext16 x) = x := by
  apply BitVec.eq_of_toNat_eq
  simp only [lo8_toNat, zext16, BitVec.toNat_setWidth]
  omega

/-- R116: the high byte of the length takes its place above the low byte already stored. -/
theorem assembledLength_eq_le16 {low : Half} (x : Byte) (h : low.toNat < 256) :
    assembledLength low x = le16 (lo8 low) x := by
  have hlow : zext16 (lo8 low) = low := by
    apply BitVec.eq_of_toNat_eq
    simp only [zext16, BitVec.toNat_setWidth, lo8_toNat]
    omega
  rw [assembledLength, le16, hlow]

/-- R31, R119: a frame is emitted only where the received pair is the checksum of its own fields. -/
theorem Dec.verdict_wf {d : Dec} (x : Byte) (h : d.wf = true) (hs : d.stage = .readCkB) :
    (d.verdict x).wf d.params = true := by
  obtain ⟨-, hf, hab, -⟩ := Dec.wf_iff.mp h
  obtain ⟨hlen, hcap⟩ : d.payload.length = d.length.toNat ∧ d.length.toNat ≤ bufferCapacity d.params := by
    simpa [Dec.fieldsWf, hs] using hf
  unfold Dec.verdict
  split
  · next hmatch =>
    obtain ⟨ha, hb⟩ : d.a = d.rxCkA ∧ d.b = x := by simpa [checksumMatches] using hmatch
    have hfield : lengthField d.payload = d.length := by simp [lengthField, hlen]
    have hdom : d.consumed = frameDomain d.cls d.id d.payload := by
      simp only [Dec.consumed, hs, frameDomain, hfield]
    have hfit : d.payload.length ≤ 65535 := by have := bufferCapacity_le d.params; omega
    have hck : (d.rxCkA, x) = fletcher (frameDomain d.cls d.id d.payload) := by rw [← ha, ← hb, hab, hdom]
    simp [Result.wf, Frame.wf, hfit, hck]
  · rfl

/-- A byte that ends no frame keeps the parameters and the queue, so the checksum is all there is to show. -/
theorem Dec.wf_of_same_queue {d d' : Dec} (h : d.wf = true) (hp : d'.params = d.params) (hr : d'.results = d.results)
    (hf : d'.fieldsWf = true) (hab : (d'.a, d'.b) = fletcher d'.consumed) : d'.wf = true := by
  obtain ⟨hpw, -, -, hq⟩ := Dec.wf_iff.mp h
  rw [Dec.queueWf_iff, ← hp, ← hr] at hq
  exact Dec.wf_iff.mpr ⟨hp ▸ hpw, hf, hab, Dec.queueWf_iff.mpr hq⟩

/-- The accumulators follow a byte consumed at the end of the checksum domain (R26, R86). -/
theorem Dec.sum_fletcher {d : Dec} {consumed : List Byte} (x : Byte) (h : (d.a, d.b) = fletcher d.consumed)
    (hx : consumed = d.consumed ++ [x]) : ((d.sum x).a, (d.sum x).b) = fletcher consumed := by
  rw [hx, fletcher_append_singleton, ← h, Dec.sum_ab]

theorem Dec.readLenHi_keeps_wf {d : Dec} (x : Byte) (h : d.wf = true) (hs : d.stage = .readLenHi) :
    (d.readLenHi x).Keeps (·.wf = true) := by
  obtain ⟨-, hf, hab, -⟩ := Dec.wf_iff.mp h
  obtain ⟨hlow, hnil, -⟩ : d.length.toNat < 256 ∧ d.payload = [] ∧ d.rxCkA = 0#8 := by
    simpa [Dec.fieldsWf, hs] using hf
  have hfields := Dec.readLenHi_keeps_fieldsWf x hs hf
  rw [Dec.readLenHi_eq] at hfields ⊢
  split at hfields
  · next hmax =>
    rw [if_pos hmax]
    split
    · next hroom => exact Dec.conclude_wf h hroom hmax
    · exact h
  · next hmax =>
    rw [if_neg hmax]
    refine Dec.wf_of_same_queue h rfl rfl hfields (Dec.sum_fletcher x hab ?_)
    cases hpos : lengthPositive (assembledLength d.length x) <;>
      simp [Dec.consumed, hs, hnil, assembledLength_eq_le16 x hlow]

theorem Dec.readPayload_keeps_wf {d : Dec} (x : Byte) (h : d.wf = true) (hs : d.stage = .readPayload) :
    (d.readPayload x).Keeps (·.wf = true) := by
  obtain ⟨-, hf, hab, -⟩ := Dec.wf_iff.mp h
  obtain ⟨hlt, hcap, -⟩ : d.payload.length < d.length.toNat ∧
      d.length.toNat ≤ bufferCapacity d.params ∧ d.rxCkA = 0#8 := by simpa [Dec.fieldsWf, hs] using hf
  have hfields := Dec.readPayload_keeps_fieldsWf x hs hf
  rw [Dec.readPayload_eq x (by omega)] at hfields ⊢
  refine Dec.wf_of_same_queue h rfl rfl hfields (Dec.sum_fletcher x hab ?_)
  cases hlast : payloadCompletes d <;> simp [Dec.consumed, hs]

theorem Dec.readCkB_keeps_wf {d : Dec} (x : Byte) (h : d.wf = true) (hs : d.stage = .readCkB) :
    (d.readCkB x).Keeps (·.wf = true) := by
  rw [Dec.readCkB_eq]
  split
  · next hroom => exact Dec.conclude_wf h hroom (Dec.verdict_wf x h hs)
  · exact h

/-- In the stages before the checksum domain no byte is summed (R111, R112). -/
theorem Dec.setStage_wf_of_seek {d : Dec} {st : DecStage} (h : d.wf = true)
    (hs : d.stage = .seekSync1 ∨ d.stage = .seekSync2) (hst : st = .seekSync1 ∨ st = .seekSync2 ∨ st = .readClass) :
    ({ d with stage := st } : Dec).wf = true := by
  obtain ⟨-, hf, hab, -⟩ := Dec.wf_iff.mp h
  refine Dec.wf_of_same_queue h rfl rfl ?_ ?_
  · rcases hs with hs | hs <;> rcases hst with rfl | rfl | rfl <;> simpa only [Dec.fieldsWf, hs] using hf
  · rcases hs with hs | hs <;> rcases hst with rfl | rfl | rfl <;> simpa only [Dec.consumed, hs] using hab

/-- Every byte keeps a Decoder's invariant (R110 to R119). -/
theorem Dec.stepByte_keeps_wf (d : Dec) (x : Byte) (h : d.wf = true) : (d.stepByte x).Keeps (·.wf = true) := by
  obtain ⟨-, hf, hab, -⟩ := Dec.wf_iff.mp h
  have hfields := Dec.stepByte_keeps_fieldsWf d x hf
  rw [Dec.stepByte_eq] at hfields ⊢
  cases hs : d.stage with
  | seekSync1 =>
    simp only [RxOutcome.Keeps]
    split
    · exact Dec.setStage_wf_of_seek h (.inl hs) (.inr (.inl rfl))
    · exact h
  | seekSync2 =>
    simp only [RxOutcome.Keeps]
    split
    · exact Dec.setStage_wf_of_seek h (.inr hs) (.inr (.inr rfl))
    · split
      · exact h
      · exact Dec.setStage_wf_of_seek h (.inr hs) (.inl rfl)
  | readClass | readId | readLenLo =>
    simp only [hs] at hfields
    refine Dec.wf_of_same_queue h rfl rfl hfields (Dec.sum_fletcher x hab ?_)
    simp [Dec.consumed, hs]
  | readLenHi => exact Dec.readLenHi_keeps_wf x h hs
  | readPayload => exact Dec.readPayload_keeps_wf x h hs
  | readCkA =>
    simp only [hs] at hfields
    exact Dec.wf_of_same_queue h rfl rfl hfields (by simpa only [Dec.consumed, hs] using hab)
  | readCkB => exact Dec.readCkB_keeps_wf x h hs

theorem RxOutcome.Keeps.of_next {P : Dec → Prop} {o : RxOutcome} {d : Dec} (h : o.Keeps P)
    (hd : o = .took d ∨ ∃ rest, o = .held d rest) : P d := by
  obtain rfl | ⟨rest, rfl⟩ := hd <;> exact h

theorem Dec.Move.wf {i : Instr} {k : Nat} {d d' : Dec} (h : d.Move i k d') (hwf : d.wf = true) : d'.wf = true := by
  cases h with
  | reset => exact Dec.reset_wf (Dec.wf_iff.mp hwf).1
  | polled hi hq => exact Dec.poll_wf hwf hq
  | fed bytes h => exact (Dec.feed_keeps_of_stepByte Dec.stepByte_keeps_wf hwf bytes).of_next h

end Sys2Proof.Machine
end

section
/-! ## The block: reset, one step, the invariant -/

namespace Sys2Proof.Machine

open Sys2Proof.Claim

theorem State.Inv.setDec {s : State} (h : s.Inv) (k : Nat) {d : Dec} (hd : d.wf = true) : (s.setDec k d).Inv := by
  obtain ⟨henc, hdecs⟩ := h
  refine ⟨henc, List.all_eq_true.mpr fun d' hd' => ?_⟩
  obtain hold | rfl := List.mem_or_eq_of_mem_set hd'
  · exact List.all_eq_true.mp hdecs d' hold
  · exact hd

theorem Effect.inv {i : Instr} {s t : State} (h : Effect i s t) (hs : s.Inv) : t.Inv := by
  cases h with
  | answered | wroteCk => exact hs
  | movedEnc v hi hmove => exact ⟨hmove.wf hs.1, hs.2⟩
  | movedDec v hi hd hmove =>
    exact hs.setDec _ (hmove.wf (List.all_eq_true.mp hs.2 _ (List.mem_of_getElem? hd)))

/-- A step with a next state does nothing, or is one operation on the state without its request. -/
theorem step_eq_next {s t : State} (h : step s = .next t) :
    t = s ∨ ∃ i r rest, s.requests = r :: rest ∧ exec i { s with requests := rest } = .next t := by
  unfold step at h
  split at h
  · cases h; exact .inl rfl
  · next r rest hr =>
    split at h
    · cases h
    · split at h
      · cases h
      · next i hi => exact .inr ⟨i, r, rest, hr, h⟩

/-- Settles O43: a step is one operation at most, whose effect moves the Encoder or one Decoder, and each move keeps the invariant. -/
theorem everyStepKeepsTheInvariant : Obligations.EveryStepKeepsTheInvariant := by
  unfold Obligations.EveryStepKeepsTheInvariant
  intro s t hs h
  obtain rfl | ⟨i, r, rest, -, h⟩ := step_eq_next h
  · exact hs
  · have hrun : State.Inv { s with requests := rest } := hs
    exact (exec_effect h).inv hrun

theorem State.init_inv {c : Config} (h : c.wf = true) : (State.init c).Inv := by
  refine ⟨Enc.reset_wf, List.all_eq_true.mpr fun d hd => ?_⟩
  obtain ⟨p, hp, rfl⟩ := List.mem_map.mp hd
  exact Dec.reset_wf (List.all_eq_true.mp h p hp)

/-- Settles O42: the Encoder and every Decoder are created in their reset states. -/
theorem createdBlockMeetsTheInvariant : Obligations.CreatedBlockMeetsTheInvariant := by
  unfold Obligations.CreatedBlockMeetsTheInvariant
  exact ⟨State.init_inv rfl, fun _ => State.init_inv⟩

/-- Settles O1: the table's values are those of `Dec.reset` and `Enc.reset`, with which a block is created and which `DEC.RESET`
puts back. -/
theorem resetGivesTheTableOfValues : Obligations.ResetGivesTheTableOfValues := by
  unfold Obligations.ResetGivesTheTableOfValues
  refine ⟨fun c => ⟨rfl, rfl, rfl⟩, ⟨rfl, rfl, fun d hd => ?_⟩, fun s k d hd => ?_⟩
  · obtain ⟨p, -, rfl⟩ := List.mem_map.mp hd
    rfl
  · exact State.onDec_some hd

/-- Settles O2: `step` takes the request off and executes what its selector decodes to. -/
theorem stepRunsTheDecodedRequest : Obligations.StepRunsTheDecodedRequest := by
  unfold Obligations.StepRunsTheDecodedRequest
  refine ⟨fun s hr => ?_, fun s r rest sel i hr hf hd _ => step_of_decode_ok hr hf hd, fun _ _ _ => rfl,
    fun s k x d hd => ?_, fun _ => rfl, fun _ _ _ => rfl⟩
  · simp only [step, hr]
  · simp only [fetch, hd]

end Sys2Proof.Machine
end

section
/-! ## The result queue and the payload buffer, as the caller sees them (R49, R54, R131) -/

namespace Sys2Proof.Machine

open Sys2Proof.Claim

/-- What an operation leaves in the queue of the Decoder it moves (R49, R108, R122, R181). -/
theorem Dec.Move.results {i : Instr} {k : Nat} {d d' : Dec} (h : d.Move i k d') :
    (∃ new, d'.results = d.results ++ new) ∨ (i = .decPoll k ∧ d'.results = d.results.tail) ∨
      (i = .decReset k ∧ d'.results = []) := by
  cases h with
  | reset hi => exact .inr (.inr ⟨hi, rfl⟩)
  | polled hi hq => exact .inr (.inl ⟨hi, by rw [hq]; rfl⟩)
  | fed bytes h => exact .inl (Dec.feed_keeps h).2

/-- Settles O41: a Decoder the operation does not move keeps its queue; each move appends, takes the oldest, or empties it. -/
theorem resultsAreNeverLostOrReordered : Obligations.ResultsAreNeverLostOrReordered := by
  unfold Obligations.ResultsAreNeverLostOrReordered
  intro i s t k d e h hd he
  have hsame : t.decs[k]? = s.decs[k]? → ∃ new, e.results = d.results ++ new := fun hk => by
    rw [he, hd] at hk
    cases hk
    exact ⟨[], (List.append_nil _).symm⟩
  cases exec_effect h with
  | answered | wroteCk | movedEnc => exact .inl (hsame rfl)
  | @movedDec j d₀ d' v hi hj hmove =>
    by_cases hjk : j = k
    · subst hjk
      rw [State.answer_decs, State.setDec_get hj] at he
      rw [hj] at hd
      cases he
      cases hd
      exact hmove.results
    · exact .inl (hsame (State.setDec_get_ne hjk _))

/-- R25, R28: the declared length of a payload being read fits the buffer. -/
theorem Dec.length_le_capacity_of_readPayload {d : Dec} (h : d.wf = true) (hs : d.stage = .readPayload) :
    d.length.toNat ≤ bufferCapacity d.params := by
  obtain ⟨-, hf, -, -⟩ := Dec.wf_iff.mp h
  obtain ⟨-, hcap, -⟩ : d.payload.length < d.length.toNat ∧
      d.length.toNat ≤ bufferCapacity d.params ∧ d.rxCkA = 0#8 := by simpa [Dec.fieldsWf, hs] using hf
  exact hcap

theorem exec_decFeed_took {s : State} {k : Nat} {d d' : Dec} {bytes : List Byte} (hd : s.decs[k]? = some d)
    (h : d.feed bytes = .took d') : exec (.decFeed k bytes) s = .next ((s.setDec k d').answer .done) := by
  have hexec : exec (.decFeed k bytes) s = s.settle k (d.feed bytes) := State.onDec_some hd
  rw [hexec, h]
  rfl

/-- Settles O36: `Dec.feed_payload` gives the Decoder after each chunk, whose stage is a function of the chunk's length. -/
theorem payloadBytesAreNotControl : Obligations.PayloadBytesAreNotControl := by
  unfold Obligations.PayloadBytesAreNotControl
  intro s k d c1 c2 hd hwf hs hlen hfit
  have hcap := Dec.length_le_capacity_of_readPayload hwf hs
  have hempty : c1 = [] ↔ c2 = [] := by rw [← List.length_eq_zero_iff, hlen, List.length_eq_zero_iff]
  refine ⟨_, _, exec_decFeed_took hd (Dec.feed_payload c1 hs hcap hfit),
    exec_decFeed_took hd (Dec.feed_payload c2 hs hcap (hlen ▸ hfit)), ?_, rfl, rfl, rfl, rfl⟩
  simp only [ne_eq, hempty, hlen]

end Sys2Proof.Machine
end

section
/-! ## Operations on different sub-blocks commute (R13, R51)

`exec_local` says for all 36 instructions what makes them commute: what is written and what is answered is a function of the registers
of the operation's own sub-block. An operation on another one leaves those as they are, so it can come before or after. -/

namespace Sys2Proof.Machine

open Sys2Proof.Claim

/-- What one operation writes: nothing, or the registers of one sub-block. -/
inductive Write
  | nothing
  | ck (c : Ck)
  | enc (e : Enc)
  | dec (k : Nat) (d : Dec)

def State.put (s : State) : Write → State
  | .nothing => s
  | .ck c => { s with ck := c }
  | .enc e => { s with enc := e }
  | .dec k d => s.setDec k d

/-- The write is to a sub-block that `i` uses. -/
def Write.Within (i : Instr) : Write → Prop
  | .nothing => True
  | .ck _ => usesCk i = true
  | .enc _ => usesEnc i = true
  | .dec k _ => decoderOf i = some k

/-- The registers that `i` uses hold the same in `s` and in `s'`. -/
structure Agree (i : Instr) (s s' : State) : Prop where
  ck : usesCk i = true → s'.ck = s.ck
  enc : usesEnc i = true → s'.enc = s.enc
  dec : ∀ k, decoderOf i = some k → s'.decs[k]? = s.decs[k]?

/-- In `s` the operation `i` depends on its own registers only (R51): wherever they hold the same, it makes the same write and gives the
same answer. -/
def Local (i : Instr) (s : State) : Prop :=
  ∃ w v, Write.Within i w ∧ ∀ s', Agree i s s' → exec i s' = .next ((s'.put w).answer v)

theorem Agree.refl (i : Instr) (s : State) : Agree i s s := ⟨fun _ => rfl, fun _ => rfl, fun _ _ => rfl⟩

theorem Agree.symm {i : Instr} {s s' : State} (h : Agree i s s') : Agree i s' s :=
  ⟨fun hi => (h.ck hi).symm, fun hi => (h.enc hi).symm, fun k hk => (h.dec k hk).symm⟩

@[simp] theorem State.put_answers (s : State) (w : Write) : (s.put w).answers = s.answers := by cases w <;> rfl

theorem State.put_answer (s : State) (w : Write) (v : Answer) : (s.answer v).put w = (s.put w).answer v := by
  cases w <;> rfl

theorem independent_symm {i j : Instr} (h : Independent i j) : Independent j i := by
  obtain ⟨hck, henc, hdec⟩ := h
  exact ⟨fun hu => hck hu.symm, fun hu => henc hu.symm, fun k hu => hdec k hu.symm⟩

/-- A write to the registers of one operation leaves those of an independent one as they are. -/
theorem Agree.of_independent {i j : Instr} (h : Independent i j) {w : Write} (hw : w.Within i) (s : State) (v : Answer) :
    Agree j s ((s.put w).answer v) := by
  obtain ⟨hck, henc, hdec⟩ := h
  cases w with
  | nothing => exact ⟨fun _ => rfl, fun _ => rfl, fun _ _ => rfl⟩
  | ck c => exact ⟨fun hj => (hck ⟨hw, hj⟩).elim, fun _ => rfl, fun _ _ => rfl⟩
  | enc e => exact ⟨fun _ => rfl, fun hj => (henc ⟨hw, hj⟩).elim, fun _ _ => rfl⟩
  | dec k d =>
    refine ⟨fun _ => rfl, fun _ => rfl, fun j hj => State.setDec_get_ne ?_ d⟩
    rintro rfl
    exact hdec k ⟨hw, hj⟩

/-- Writes to different sub-blocks commute. -/
theorem State.put_comm {i j : Instr} (h : Independent i j) {w w' : Write} (hw : w.Within i) (hw' : w'.Within j)
    (s : State) : (s.put w).put w' = (s.put w').put w := by
  obtain ⟨hck, henc, hdec⟩ := h
  cases w with
  | nothing => rfl
  | ck c =>
    cases w' with
    | ck => exact (hck ⟨hw, hw'⟩).elim
    | nothing | enc | dec => rfl
  | enc e =>
    cases w' with
    | enc => exact (henc ⟨hw, hw'⟩).elim
    | nothing | ck | dec => rfl
  | dec k d =>
    cases w' with
    | dec k' d' =>
      have hne : k ≠ k' := by
        rintro rfl
        exact hdec k ⟨hw, hw'⟩
      simp only [State.put, State.setDec, List.set_comm d d' hne]
    | nothing | ck | enc => rfl

/-! ### The shared forms of the operations -/

section
variable {i : Instr} {s t : State}

theorem local_of_settle {k : Nat} {o : RxOutcome} (hi : decoderOf i = some k) (h : s.settle k o = .next t)
    (hexec : ∀ s' : State, s'.decs[k]? = s.decs[k]? → exec i s' = s'.settle k o) : Local i s := by
  obtain ⟨d, rfl, -⟩ | ⟨d, rest, rfl, -⟩ := State.settle_eq_next h
  · exact ⟨.dec k d, .done, hi, fun s' hs' => hexec s' (hs'.dec k hi)⟩
  · exact ⟨.dec k d, .heldBack rest, hi, fun s' hs' => hexec s' (hs'.dec k hi)⟩

theorem local_of_feed {k : Nat} {feed : Dec → RxOutcome} (hi : decoderOf i = some k)
    (hexec : ∀ s' : State, exec i s' = s'.onDec k fun d => s'.settle k (feed d)) (h : exec i s = .next t) :
    Local i s := by
  rw [hexec] at h
  obtain ⟨d, hd, h⟩ := State.onDec_eq_next h
  exact local_of_settle hi h fun s' hs' => (hexec s').trans (State.onDec_some (hs'.trans hd))

theorem local_of_onArm {k : Nat} {stage : DecStage} {selected : Bool} {arm : Dec → RxOutcome}
    (hi : decoderOf i = some k) (hexec : ∀ s' : State, exec i s' = s'.onArm k stage selected arm)
    (h : exec i s = .next t) : Local i s := by
  rw [hexec] at h
  obtain ⟨d, hd, rfl, hsel, h⟩ := State.onArm_eq_next h
  exact local_of_settle hi h fun s' hs' => (hexec s').trans (State.onArm_selected (hs'.trans hd) hsel)

theorem local_of_handOut {o : TxOutcome} (hi : usesEnc i = true) (h : s.handOut o = .next t)
    (hexec : ∀ s' : State, s'.enc = s.enc → exec i s' = s'.handOut o) : Local i s := by
  obtain ⟨v, e, rfl, -⟩ := State.handOut_eq_next h
  exact ⟨.enc e, .byte v, hi, fun s' hs' => hexec s' (hs'.enc hi)⟩

theorem local_of_onTake {stage : EncStage} {arm : Enc → TxOutcome} (hi : usesEnc i = true)
    (hexec : ∀ s' : State, exec i s' = s'.onTake stage arm) (h : exec i s = .next t) : Local i s := by
  rw [hexec] at h
  obtain ⟨hs, h⟩ := State.onTake_eq_next h
  refine local_of_handOut hi h fun s' hs' => ?_
  rw [hexec, State.onTake, hs', if_pos hs]

/-- `ENC.START` reads the Encoder's stage and its operands only (R93, R182). -/
theorem local_encStart (cls id : Byte) (payload : List Byte) (s : State) : Local (.encStart cls id payload) s := by
  by_cases hidle : s.enc.stage = .idle
  · by_cases hover : oversized payload = true
    · exact ⟨.nothing, .error .oversizedPayload, trivial, fun s' hs' => by
        simp [exec, execEncStart, hs'.enc rfl, hidle, hover, State.put]⟩
    · exact ⟨.enc (Enc.latched cls id payload), .ok, rfl, fun s' hs' => by
        simp [exec, execEncStart, hs'.enc rfl, hidle, hover, State.put]⟩
  · exact ⟨.nothing, .refusedBusy, trivial, fun s' hs' => by
      simp [exec, execEncStart, hs'.enc rfl, hidle, State.put]⟩

/-- `DEC.POLL` reads the queue of its Decoder only (R122). -/
theorem local_decPoll {k : Nat} {d : Dec} (hd : s.decs[k]? = some d) : Local (.decPoll k) s := by
  have hget : ∀ s', Agree (.decPoll k) s s' → s'.decs[k]? = some d := fun s' hs' => (hs'.dec k rfl).trans hd
  cases hq : d.results with
  | nil =>
    exact ⟨.nothing, .result none, trivial, fun s' hs' => by
      simp [exec, execDecPoll, State.onDec_some (hget s' hs'), hq, State.put]⟩
  | cons r rest =>
    exact ⟨.dec k { d with results := rest }, .result (some r), rfl, fun s' hs' => by
      simp [exec, execDecPoll, State.onDec_some (hget s' hs'), hq, State.put]⟩

end

/-- Every instruction with a next state depends on its own registers only. -/
theorem exec_local {i : Instr} {s t : State} (h : exec i s = .next t) : Local i s := by
  cases i with
  | ckCompute | ckVerify | encEncode => exact ⟨.nothing, _, trivial, fun _ _ => rfl⟩
  | ckClear => exact ⟨.ck Ck.reset, .done, rfl, fun _ _ => rfl⟩
  | ckUpdate x =>
    refine ⟨.ck ⟨(ckStep (s.ck.a, s.ck.b) x).1, (ckStep (s.ck.a, s.ck.b) x).2⟩, .done, rfl, fun s' hs' => ?_⟩
    rw [← hs'.ck rfl]
    rfl
  | ckRead =>
    refine ⟨.nothing, .pair s.ck.a s.ck.b, trivial, fun s' hs' => ?_⟩
    rw [← hs'.ck rfl]
    rfl
  | ckMatch ea eb =>
    refine ⟨.nothing, .truth (decide (s.ck.a = ea ∧ s.ck.b = eb)), trivial, fun s' hs' => ?_⟩
    rw [← hs'.ck rfl]
    rfl
  | encStart cls id payload => exact local_encStart cls id payload s
  | encNext => exact local_of_handOut rfl h fun s' hs' => by rw [← hs']; rfl
  | decReset k =>
    obtain ⟨d, hd, -⟩ := State.onDec_eq_next h
    exact ⟨.dec k (Dec.reset d.params), .done, rfl, fun s' hs' => State.onDec_some ((hs'.dec k rfl).trans hd)⟩
  | decPoll k =>
    obtain ⟨d, hd, -⟩ := State.onDec_eq_next h
    exact local_decPoll hd
  | decFeed | decStep | frame => exact local_of_feed rfl (fun _ => rfl) h
  | rxSeekSync1Hit | rxSeekSync1Other | rxSeekSync2Hit | rxSeekSync2Sync1 | rxSeekSync2Other | rxReadClass | rxReadId
  | rxReadLenLo | rxReadLenHi | rxReadPayload | rxReadCkA | rxReadCkB => exact local_of_onArm rfl (fun _ => rfl) h
  | txIdle | txSync1 | txSync2 | txClass | txId | txLenLo | txLenHi | txPayload | txCkA | txCkB =>
    exact local_of_onTake rfl (fun _ => rfl) h

/-- Settles O40: each operation makes the same write and gives the same answer in either order, and the two writes commute. -/
theorem independentOperationsCommute : Obligations.IndependentOperationsCommute := by
  unfold Obligations.IndependentOperationsCommute
  intro i j s t u hij hi hj
  obtain ⟨w, v, hw, hruni⟩ := exec_local hi
  obtain ⟨w', v', hw', hrunj⟩ := exec_local hj
  have ht : t = (s.put w).answer v := Host.Outcome.next.inj (hi.symm.trans (hruni s (.refl i s)))
  have hu : u = (t.put w').answer v' := Host.Outcome.next.inj (hj.symm.trans (hrunj t (.refl j t)))
  have hjs : Agree j t s := by
    rw [ht]
    exact (Agree.of_independent hij hw s v).symm
  have his : Agree i s ((s.put w').answer v') := .of_independent (independent_symm hij) hw' s v'
  have hu' : t.put w' = ((s.put w').put w).answer v := by rw [ht, State.put_answer, State.put_comm hij hw hw']
  refine ⟨_, _, v, v', hrunj s hjs, hruni _ his, ?_⟩
  simp [hu, hu', State.put_answer]

end Sys2Proof.Machine
end

section
/-! ## The decoder and the encoder are inverse to each other (R57, R62 to R65)

`Laws.RoundTrip` says for each instruction that its encoding reads back. Here the converse, by kind of selector: what decodes is
well formed and encodes to the selector it was read from. -/

namespace Sys2Proof

/-- Settles O4, by the law of each instruction. -/
theorem decodeReadsBackEveryEncodedInstruction : Obligations.DecodeReadsBackEveryEncodedInstruction := by
  unfold Obligations.DecodeReadsBackEveryEncodedInstruction
  intro i
  cases i with
  | rxSeekSync1Other k x => exact Laws.RoundTrip.rxSeekSync1Other k x
  | rxSeekSync2Other k x => exact Laws.RoundTrip.rxSeekSync2Other k x
  | rxReadClass k x | rxReadId k x | rxReadLenLo k x | rxReadLenHi k x | rxReadPayload k x | rxReadCkA k x
  | rxReadCkB k x => exact fun _ => Laws.RoundTrip.decode_rxWordOf k _ x
  | frame k cls id payload ckA ckB => exact Laws.RoundTrip.frame k cls id payload ckA ckB
  | _ => exact fun _ => rfl

/-- The instruction is well formed and `sel` is its encoding. -/
def EncodedAs (i : Instr) (sel : Selector) : Prop := i.wellFormed = true ∧ encode i = sel

/-- An operation: the code is the row's, and the operand bytes are all its operands (R62, R63). -/
theorem encodedAs_of_decode_op {k : Nat} {bytes : List Byte} {i : Instr} (h : decode (.op k bytes) = .ok i) :
    EncodedAs i (.op k bytes) := by
  cases bytes with
  | nil => cases h
  | cons op args =>
    suffices EncodedAs i (.op k (BitVec.ofNat 8 op.toNat :: args)) by simpa using this
    simp only [decode, decodeOp] at h
    generalize op.toNat = code at h ⊢
    split at h <;> simp only [onlyUnit_eq_ok, operands0_eq_ok, operands1_eq_ok, operands2_eq_ok, operands2Seq_eq_ok,
      Except.ok.injEq, reduceCtorEq] at h
    case h_1 => obtain ⟨rfl, rfl⟩ := h; exact ⟨rfl, rfl⟩
    case h_2 | h_7 | h_8 => obtain ⟨rfl, _, _, _, rfl, rfl⟩ := h; exact ⟨rfl, rfl⟩
    case h_3 | h_5 | h_9 => obtain ⟨rfl, rfl, rfl⟩ := h; exact ⟨rfl, rfl⟩
    case h_4 => obtain ⟨rfl, _, rfl, rfl⟩ := h; exact ⟨rfl, rfl⟩
    case h_6 => obtain ⟨rfl, _, _, rfl, rfl⟩ := h; exact ⟨rfl, rfl⟩
    case h_10 | h_13 => obtain ⟨rfl, rfl⟩ := h; exact ⟨rfl, rfl⟩
    case h_11 => subst h; exact ⟨rfl, rfl⟩
    case h_12 => obtain ⟨_, rfl, rfl⟩ := h; exact ⟨rfl, rfl⟩

theorem rxWordOf_of_ofCode {w : BitVec 12} {st : DecStage} (h : DecStage.ofCode (w.extractLsb' 8 4) = some st) :
    rxWordOf st (w.extractLsb' 0 8) = w := by
  rw [rxWordOf, DecStage.code_of_ofCode h]
  exact rxWord_fields w

/-- A word whose stage code is reserved decodes to nothing (R67). -/
theorem decode_rxWord_of_ofCode_none {w : BitVec 12} (k : Nat) (h : DecStage.ofCode (w.extractLsb' 8 4) = none) :
    decode (.rxWord k w) = .error (.reservedDecStage w) := by simp only [decode, decodeRx, h]

/-- A word that decodes carries a stage and a byte (R64). -/
theorem exists_rxWordOf_of_decode {k : Nat} {w : BitVec 12} {i : Instr} (h : decode (.rxWord k w) = .ok i) :
    ∃ st x, w = rxWordOf st x := by
  cases hst : DecStage.ofCode (w.extractLsb' 8 4) with
  | some st => exact ⟨st, _, (rxWordOf_of_ofCode hst).symm⟩
  | none =>
    rw [decode_rxWord_of_ofCode_none k hst] at h
    cases h

theorem decode_txWord_of_ofCode_none {w : BitVec 4} (h : EncStage.ofCode w = none) :
    decode (.txWord w) = .error (.reservedEncStage w) := by simp only [decode, decodeTx, h]

/-- A word that decodes is the code of a stage (R65). -/
theorem exists_code_of_decode_txWord {w : BitVec 4} {i : Instr} (h : decode (.txWord w) = .ok i) :
    ∃ st : EncStage, w = st.code := by
  cases hst : EncStage.ofCode w with
  | some st => exact ⟨st, (EncStage.code_of_ofCode hst).symm⟩
  | none =>
    rw [decode_txWord_of_ofCode_none hst] at h
    cases h

/-- An arm of `DEC.STEP`: the rows of the seek stages stand behind those that fix the byte (R64). -/
theorem encodedAs_of_decode_rxWord {k : Nat} {w : BitVec 12} {i : Instr} (h : decode (.rxWord k w) = .ok i) :
    EncodedAs i (.rxWord k w) := by
  obtain ⟨st, x, rfl⟩ := exists_rxWordOf_of_decode h
  rw [Laws.RoundTrip.decode_rxWordOf] at h
  cases h
  cases st with
  | seekSync1 =>
    dsimp only
    split
    · next hx => subst hx; exact ⟨rfl, rfl⟩
    · next hx => exact ⟨by simpa [Instr.wellFormed, sync1] using hx, rfl⟩
  | seekSync2 =>
    dsimp only
    split
    · next hx => subst hx; exact ⟨rfl, rfl⟩
    · next hx2 =>
      split
      · next hx => subst hx; exact ⟨rfl, rfl⟩
      · next hx1 => exact ⟨by simpa [Instr.wellFormed, sync1, sync2] using And.intro hx2 hx1, rfl⟩
  | _ => exact ⟨rfl, rfl⟩

theorem encodedAs_of_decode_txWord {w : BitVec 4} {i : Instr} (h : decode (.txWord w) = .ok i) :
    EncodedAs i (.txWord w) := by
  obtain ⟨st, rfl⟩ := exists_code_of_decode_txWord h
  rw [Machine.decode_txWord_code] at h
  cases h
  cases st <;> exact ⟨rfl, rfl⟩

/-- A payload is the length its own length field holds. -/
theorem lengthField_of_length {payload : List Byte} {n : Half} (h : payload.length = n.toNat) : lengthField payload = n := by
  simp [lengthField, h]

/-- A frame: its header declares how many bytes stand before the checksum (R57, R60). -/
theorem encodedAs_of_decode_frame {k : Nat} {bytes : List Byte} {i : Instr} (h : decode (.frame k bytes) = .ok i) :
    EncodedAs i (.frame k bytes) := by
  simp only [decode, decodeFrame] at h
  split at h
  · next s1 s2 cls id l hi rest =>
    split at h
    · next hsync =>
      obtain ⟨rfl, rfl⟩ := hsync
      split at h
      · next ckA ckB htail =>
        cases h
        have hlen : (rest.take (le16 l hi).toNat).length = (le16 l hi).toNat := by
          have hdrop := congrArg List.length htail
          simp only [List.length_drop, List.length_cons, List.length_nil] at hdrop
          simp only [List.length_take]
          omega
        refine ⟨decide_eq_true ?_, ?_⟩
        · have := (le16 l hi).isLt
          omega
        · simp [encode, frameBytes, frameDomain, lengthField_of_length hlen, ← htail]
      · cases h
    · cases h
  · cases h

/-- Settles O5, by kind of selector. -/
theorem encodeGivesBackEveryDecodedWord : Obligations.EncodeGivesBackEveryDecodedWord := by
  unfold Obligations.EncodeGivesBackEveryDecodedWord
  intro sel i h
  cases sel with
  | op k bytes => exact encodedAs_of_decode_op h
  | rxWord k w => exact encodedAs_of_decode_rxWord h
  | txWord w => exact encodedAs_of_decode_txWord h
  | frame k bytes => exact encodedAs_of_decode_frame h

end Sys2Proof
end

section
/-! ## The rows of the table, and the codes it reserves (R64, R67) -/

namespace Sys2Proof

/-- A mask of all ones compares the stage and the byte. -/
theorem match_exact_row (w : BitVec 12) (st : DecStage) (y : Byte) :
    (w &&& 0xFFF#12 == rxWordOf st y) = decide (w.extractLsb' 8 4 = st.code ∧ w.extractLsb' 0 8 = y) := by
  have hmask : w &&& 0xFFF#12 = w := BitVec.and_allOnes
  rw [hmask, Bool.eq_iff_iff, beq_iff_eq, decide_eq_true_iff]
  constructor
  · rintro rfl
    exact ⟨rxWordOf_stage st y, rxWordOf_byte st y⟩
  · rintro ⟨hst, hy⟩
    rw [rxWordOf, ← hst, ← hy]
    exact (rxWord_fields w).symm

/-- A mask of the four high bits compares the stage alone. -/
theorem match_stage_row (w : BitVec 12) (st : DecStage) :
    (w &&& 0xF00#12 == rxWordOf st 0#8) = decide (w.extractLsb' 8 4 = st.code) := by
  have hmask : w &&& 0xF00#12 = (w.extractLsb' 8 4 ++ 0#8 : BitVec (4 + 8)) :=
    calc
      w &&& 0xF00#12 = (w.extractLsb' 8 4 ++ w.extractLsb' 0 8 : BitVec (4 + 8)) &&& (BitVec.allOnes 4 ++ 0#8) := by
        rw [rxWord_fields]; rfl
      _ = (w.extractLsb' 8 4 &&& BitVec.allOnes 4) ++ (w.extractLsb' 0 8 &&& 0#8) := BitVec.and_append
      _ = w.extractLsb' 8 4 ++ 0#8 := by rw [BitVec.and_allOnes, BitVec.and_zero]
  rw [hmask, Bool.eq_iff_iff, beq_iff_eq, decide_eq_true_iff]
  constructor
  · intro h
    have hst := congrArg (fun v : BitVec 12 => v.extractLsb' 8 4) h
    rwa [rxWordOf_stage, BitVec.extractLsb'_append_eq_left] at hst
  · intro h
    rw [rxWordOf, h]

/-- The rows with their `match` columns as words of a stage and a byte. -/
theorem rxRows_eq : rxRows =
    [ ⟨0xFFF#12, rxWordOf .seekSync1 sync1, fun k _ => .rxSeekSync1Hit k⟩,
      ⟨0xF00#12, rxWordOf .seekSync1 0#8, .rxSeekSync1Other⟩,
      ⟨0xFFF#12, rxWordOf .seekSync2 sync2, fun k _ => .rxSeekSync2Hit k⟩,
      ⟨0xFFF#12, rxWordOf .seekSync2 sync1, fun k _ => .rxSeekSync2Sync1 k⟩,
      ⟨0xF00#12, rxWordOf .seekSync2 0#8, .rxSeekSync2Other⟩,
      ⟨0xF00#12, rxWordOf .readClass 0#8, .rxReadClass⟩,
      ⟨0xF00#12, rxWordOf .readId 0#8, .rxReadId⟩,
      ⟨0xF00#12, rxWordOf .readLenLo 0#8, .rxReadLenLo⟩,
      ⟨0xF00#12, rxWordOf .readLenHi 0#8, .rxReadLenHi⟩,
      ⟨0xF00#12, rxWordOf .readPayload 0#8, .rxReadPayload⟩,
      ⟨0xF00#12, rxWordOf .readCkA 0#8, .rxReadCkA⟩,
      ⟨0xF00#12, rxWordOf .readCkB 0#8, .rxReadCkB⟩ ] := rfl

theorem DecStage.code_inj {st st' : DecStage} : st.code = st'.code ↔ st = st' :=
  ⟨fun h => Option.some.inj (by rw [← ofCode_code st, h, ofCode_code]), congrArg _⟩

/-- No row matches a word whose stage code is reserved. -/
theorem firstRxRow_of_ofCode_none {w : BitVec 12} (k : Nat) (h : DecStage.ofCode (w.extractLsb' 8 4) = none) :
    firstRxRow k w = none := by
  have hne : ∀ st : DecStage, w.extractLsb' 8 4 ≠ st.code := by
    intro st hst
    rw [hst, DecStage.ofCode_code] at h
    cases h
  simp [firstRxRow, rxRows_eq, match_exact_row, match_stage_row, hne]

/-- The first row that matches the word of a stage and a byte is the arm decoded from it. -/
theorem firstRxRow_rxWordOf (k : Nat) (st : DecStage) (x : Byte) :
    (firstRxRow k (rxWordOf st x)).map .ok = some (decode (.rxWord k (rxWordOf st x))) := by
  rw [Laws.RoundTrip.decode_rxWordOf]
  simp only [firstRxRow, rxRows_eq, List.find?_cons, match_exact_row, match_stage_row, rxWordOf_stage, rxWordOf_byte,
    DecStage.code_inj]
  cases st with
  | seekSync1 => by_cases hx : x = sync1 <;> simp [hx]
  | seekSync2 =>
    by_cases hx2 : x = sync2
    · simp [hx2]
    · by_cases hx1 : x = sync1
      · subst hx1; simp [hx2]
      · simp [hx1, hx2]
  | _ => simp

/-- Settles O6: a word is of a stage and a byte, or matches no row and decodes to nothing. -/
theorem firstMatchingRowIsTheArmDecoded : Obligations.FirstMatchingRowIsTheArmDecoded := by
  unfold Obligations.FirstMatchingRowIsTheArmDecoded
  intro k w i
  cases hst : DecStage.ofCode (w.extractLsb' 8 4) with
  | none => simp [decode_rxWord_of_ofCode_none k hst, firstRxRow_of_ofCode_none k hst]
  | some st =>
    rw [← rxWordOf_of_ofCode hst]
    obtain ⟨j, hj, hdec⟩ := Option.map_eq_some_iff.mp (firstRxRow_rxWordOf k st (w.extractLsb' 0 8))
    simp [hj, ← hdec]

theorem DecStage.ofCode_reserved {c : BitVec 4} (h : 9 ≤ c.toNat) : DecStage.ofCode c = none := by
  revert c
  decide

theorem EncStage.ofCode_reserved {c : BitVec 4} (h : 10 ≤ c.toNat) : EncStage.ofCode c = none := by
  revert c
  decide

/-- The thirteen codes of R63 are all that `decodeOp` knows. -/
theorem decodeOp_reserved (k : Nat) {op : Byte} (args : List Byte)
    (h : op.toNat ∉ [0x10, 0x11, 0x12, 0x13, 0x14, 0x15, 0x20, 0x21, 0x22, 0x30, 0x31, 0x32, 0x33]) :
    decodeOp k op args = .error (.reservedOp op) := by
  unfold decodeOp
  split <;> simp_all

/-- Settles O9: no stage code is reserved, the readers of the stage codes know no other, and `step` ends in what the decoder
refuses. -/
theorem reservedCodesAreRefused : Obligations.ReservedCodesAreRefused := by
  unfold Obligations.ReservedCodesAreRefused
  refine ⟨fun st => ?_, fun st => ?_, fun k w h => ?_, fun w h => ?_, fun s k op args rest hr hop => ?_⟩
  · cases st <;> decide
  · cases st <;> decide
  · refine decode_rxWord_of_ofCode_none k (DecStage.ofCode_reserved ?_)
    have := w.isLt
    simp only [BitVec.extractLsb'_toNat, Nat.shiftRight_eq_div_pow]
    omega
  · exact decode_txWord_of_ofCode_none (EncStage.ofCode_reserved h)
  · exact Machine.step_of_decode_error hr rfl (decodeOp_reserved k args hop)

/-- Settles O3, by evaluating each word. -/
theorem wordsOfTheTablesDecode : Obligations.WordsOfTheTablesDecode := by
  unfold Obligations.WordsOfTheTablesDecode
  decide

end Sys2Proof
end

section
/-! ## A word of the table, presented (log entry 9) -/

namespace Sys2Proof.Machine

open Sys2Proof.Claim

/-- An operation on a Decoder that does not exist is refused (R13; log entry 14). -/
theorem exec_of_missing {i : Instr} {k : Nat} {s : State} (hi : decoderOf i = some k) (hd : s.decs[k]? = none) :
    exec i s = .refused (.noSuchDecoder k) := by
  cases i with
  | decReset | decFeed | decStep | decPoll | frame | rxSeekSync1Hit | rxSeekSync1Other | rxSeekSync2Hit | rxSeekSync2Sync1
  | rxSeekSync2Other | rxReadClass | rxReadId | rxReadLenLo | rxReadLenHi | rxReadPayload | rxReadCkA | rxReadCkB =>
    cases hi
    exact State.onDec_none hd
  | _ => cases hi

/-- The arm a word selects is one of the Decoder the word was formed at (R64). -/
theorem decoderOf_of_decode_rxWord {k : Nat} {st : DecStage} {x : Byte} {i : Instr}
    (h : decode (.rxWord k (rxWordOf st x)) = .ok i) : decoderOf i = some k := by
  rw [Laws.RoundTrip.decode_rxWordOf] at h
  cases h
  cases st with
  | seekSync1 => dsimp only; split <;> rfl
  | seekSync2 => dsimp only; split <;> [rfl; split <;> rfl]
  | _ => rfl

section
variable (s : State)

/-- What is presented is served next, on the state it was presented to. -/
theorem step_present {r : Request} {sel : Selector} {i : Instr} (hf : fetch (s.present r) r = .ok sel)
    (hd : decode sel = .ok i) : step (s.present r) = exec i s :=
  step_of_decode_ok rfl hf hd

/-- A word of a stage and a byte runs its arm on Decoder `k` put in that stage, or is refused as the arm is, where there is no
Decoder `k`. -/
theorem step_presentSelector_rxWord {k : Nat} {st : DecStage} {x : Byte} {i : Instr}
    (h : decode (.rxWord k (rxWordOf st x)) = .ok i) :
    step (s.presentSelector (.rxWord k (rxWordOf st x))) =
      exec i { s with decs := s.decs.modify k fun d => d.atStage st } := by
  simp only [State.presentSelector, rxWordOf_stage, rxWordOf_byte, DecStage.ofCode_code]
  cases hd : s.decs[k]? with
  | none =>
    have hnone : (s.decs.modify k fun d => d.atStage st)[k]? = none := by simp [hd]
    rw [exec_of_missing (decoderOf_of_decode_rxWord h) hnone]
    exact step_of_fetch_error rfl (by simp only [fetch, State.present_decs, hnone])
  | some d =>
    have hget : (s.decs.modify k fun d => d.atStage st)[k]? = some (d.atStage st) := by simp [hd]
    exact step_present _ (by simp only [fetch, State.present_decs, hget, Dec.atStage_stage]) h

/-- A word of an Encoder stage runs its arm on the Encoder put in that stage. -/
theorem step_presentSelector_txWord {st : EncStage} {i : Instr} (h : decode (.txWord st.code) = .ok i) :
    step (s.presentSelector (.txWord st.code)) = exec i { s with enc := s.enc.atStage st } := by
  simp only [State.presentSelector, EncStage.ofCode_code]
  exact step_present _ (by simp only [fetch, State.present_enc, Enc.atStage_stage]) h

end

/-- A table word of the Decoder is one of Decoder 0 (log entry 2). -/
theorem tableSelector_rxWord {nbits w k : Nat} {w' : BitVec 12} (h : tableSelector nbits w = some (.rxWord k w')) :
    k = 0 := by
  unfold tableSelector at h
  split_ifs at h <;> cases h
  rfl

theorem decodeTableWord_eq_some {nbits w : Nat} {i : Instr} (h : decodeTableWord nbits w = some i) :
    ∃ sel, tableSelector nbits w = some sel ∧ decode sel = .ok i := by
  unfold decodeTableWord at h
  split at h
  · cases h
  · next sel hsel =>
    split at h
    · next j hj => cases h; exact ⟨sel, hsel, hj⟩
    · cases h

theorem State.withFetchWord_of_tableSelector (s : State) {nbits w : Nat} {sel : Selector}
    (h : tableSelector nbits w = some sel) : s.withFetchWord nbits w = s.presentSelector sel := by
  simp only [State.withFetchWord, State.presentWord, h]

/-! ### The sub-block a word's stage selects keeps its invariant -/

/-- The model's test of the limit is the claim's (R116). -/
theorem exceedsMax_iff {p : DecoderParams} {n : Half} : exceedsMax p n = true ↔ Exceeds p n.toNat := by
  unfold exceedsMax Exceeds
  cases p.maxPayload <;> simp

/-- Nothing of a frame has been consumed, or a header of zeros (R28). -/
theorem Dec.resync_stage_wf {d : Dec} (h : d.wf = true) {st : DecStage} (hst : st ≠ .readPayload) :
    ({ d.resync with stage := st } : Dec).wf = true := by
  refine Dec.wf_of_same_queue h rfl rfl ?_ ?_
  · cases st with
    | readPayload => exact absurd rfl hst
    | _ => simp [Dec.fieldsWf, Dec.resync, Dec.reset]
  · cases st with
    | readPayload => exact absurd rfl hst
    | readCkA | readCkB =>
      have hzero : ((0#8, 0#8) : Byte × Byte) = fletcher [0#8, 0#8, lo8 0#16, hi8 0#16] := by decide
      exact hzero
    | _ => rfl

/-- In stage `ReadPayload` the header declares one byte, which must be within the limit (R25, R28). -/
theorem Dec.atStage_wf {d : Dec} {st : DecStage} (h : d.wf = true) (hmax : st = .readPayload → ¬Exceeds d.params 1) :
    (d.atStage st).wf = true := by
  unfold Dec.atStage
  split
  · exact h
  · split
    · next hst =>
      subst hst
      have hfit : 1 ≤ bufferCapacity d.params :=
        le_bufferCapacity_of_not_exceedsMax (n := 1#16) (Bool.eq_false_iff.mpr fun hex => hmax rfl (exceedsMax_iff.mp hex))
      have hheader : fletcher [0#8, 0#8, 1#8, 0#8] = fletcher [0#8, 0#8, lo8 1#16, hi8 1#16] := by decide
      exact Dec.wf_of_same_queue h rfl rfl (by simpa [Dec.fieldsWf, Dec.resync, Dec.reset] using hfit) hheader
    · next hst => exact Dec.resync_stage_wf h hst

theorem Enc.atStage_wf {e : Enc} (st : EncStage) (h : e.wf = true) : (e.atStage st).wf = true := by
  unfold Enc.atStage
  split
  · exact h
  · split
    · next hst => subst hst; rfl
    · next hst =>
      cases st with
      | payload => exact absurd rfl hst
      | _ => rfl

/-- Settles O10, by kind of word: an operation and a frame are presented as they are, an arm's word with its sub-block put in the
stage the word names. -/
theorem presentedWordRunsNext : Obligations.PresentedWordRunsNext := by
  unfold Obligations.PresentedWordRunsNext
  refine ⟨fun s nbits w i h => ?_, fun d st => ?_, fun e st => ?_⟩
  · obtain ⟨sel, hsel, hi⟩ := decodeTableWord_eq_some h
    refine ⟨sel, hsel, hi, ?_⟩
    rw [s.withFetchWord_of_tableSelector hsel]
    cases sel with
    | op k bytes => exact .inl ⟨k, bytes, .inl rfl, step_present s rfl hi⟩
    | frame k bytes => exact .inl ⟨k, bytes, .inr rfl, step_present s rfl hi⟩
    | rxWord k w' =>
      obtain rfl := tableSelector_rxWord hsel
      obtain ⟨st, x, rfl⟩ := exists_rxWordOf_of_decode hi
      exact .inr (.inl ⟨st, x, rfl, step_presentSelector_rxWord s hi⟩)
    | txWord w' =>
      obtain ⟨st, rfl⟩ := exists_code_of_decode_txWord hi
      exact .inr (.inr ⟨st, rfl, step_presentSelector_txWord s hi⟩)
  · exact ⟨fun hst => hst ▸ Dec.atStage_self d, Dec.atStage_stage d st, Dec.atStage_results d st, Dec.atStage_params d st,
      Dec.atStage_wf⟩
  · exact ⟨fun hst => hst ▸ Enc.atStage_self e, Enc.atStage_stage e st, Enc.atStage_wf st⟩

end Sys2Proof.Machine
end

section
/-! ## Runs of several operations, and the streamed checksum (R71, R83, R86) -/

namespace Sys2Proof.Machine

open Sys2Proof.Claim

/-- A run in two pieces: the second follows where the first ended. -/
theorem execAll_append {is : List Instr} {s t : State} (js : List Instr) (h : execAll is s = .next t) :
    execAll (is ++ js) s = execAll js t := by
  induction is generalizing s with
  | nil => cases h; rfl
  | cons i is ih =>
    simp only [List.cons_append, execAll] at h ⊢
    cases hi : exec i s with
    | next u => rw [hi] at h; exact ih h
    | fault r => rw [hi] at h; cases h
    | refused r => rw [hi] at h; cases h

/-- The state after `n` operations without a result that leave `ab` in the `ck` registers. -/
def State.accumulated (s : State) (ab : Byte × Byte) (n : Nat) : State :=
  { s with ck := { a := ab.1, b := ab.2 }, answers := s.answers ++ List.replicate n .done }

/-- One `CK.UPDATE` for each byte is the fold of `ck_step` over the bytes (R77, R81). -/
theorem execAll_ckUpdate (data : List Byte) (s : State) :
    execAll (data.map .ckUpdate) s = .next (s.accumulated (data.foldl ckStep (s.ck.a, s.ck.b)) data.length) := by
  induction data generalizing s with
  | nil => simp [execAll, State.accumulated]
  | cons x rest ih =>
    have hx : execAll ((x :: rest).map .ckUpdate) s =
        execAll (rest.map .ckUpdate) (s.accumulated (ckStep (s.ck.a, s.ck.b) x) 1) := rfl
    rw [hx, ih]
    simp [State.accumulated, List.replicate_succ]

/-- Cleared first, the registers end with the checksum of the bytes (R77, R80, R86). -/
theorem execAll_ckClear_ckUpdate (data : List Byte) (s : State) :
    execAll (.ckClear :: data.map .ckUpdate) s = .next (s.accumulated (fletcher data) (data.length + 1)) := by
  have hclear : execAll (.ckClear :: data.map .ckUpdate) s =
      execAll (data.map .ckUpdate) (s.accumulated (0#8, 0#8) 1) := rfl
  rw [hclear, execAll_ckUpdate]
  simp [State.accumulated, fletcher, List.replicate_succ]

/-- Settles O14: the streamed registers hold the checksum of the whole sequence when they are read or matched. -/
theorem streamedChecksumEqualsWholeSequence : Obligations.StreamedChecksumEqualsWholeSequence := by
  unfold Obligations.StreamedChecksumEqualsWholeSequence
  intro s data ea eb
  have hverify : exec (.ckVerify data ea eb) s =
      .next (s.answer (.truth (decide ((fletcher data).1 = ea ∧ (fletcher data).2 = eb)))) := by
    simp only [exec, execCkVerify, Prod.ext_iff]
  exact ⟨_, _, _, _, _, execAll_append [.ckRead] (execAll_ckClear_ckUpdate data s),
    execAll_append [.ckMatch ea eb] (execAll_ckClear_ckUpdate data s), rfl, hverify,
    List.getLast?_concat, List.getLast?_concat, rfl, rfl, rfl⟩

end Sys2Proof.Machine
end

section
/-! ## A whole frame (R57, R113 to R119, R132)

The header takes the Decoder from the canonical idle state into the frame, the payload to its end, the checksum back to idle. -/

namespace Sys2Proof.Machine

open Sys2Proof.Claim

theorem lo8_lengthField (payload : List Byte) : lo8 (lengthField payload) = BitVec.ofNat 8 payload.length := by
  apply BitVec.eq_of_toNat_eq
  simp only [lo8_toNat, lengthField, BitVec.toNat_ofNat]
  omega

theorem hi8_lengthField (payload : List Byte) : hi8 (lengthField payload) = BitVec.ofNat 8 (payload.length / 256) := by
  apply BitVec.eq_of_toNat_eq
  simp only [hi8_toNat, lengthField, BitVec.toNat_ofNat]
  omega

/-- The model's checksum domain is the claim's (R58). -/
theorem frameDomain_eq_domain (cls id : Byte) (payload : List Byte) : frameDomain cls id payload = domain cls id payload := by
  rw [frameDomain, lo8_lengthField, hi8_lengthField, domain]

/-- The model's frame is the claim's (R57). -/
theorem frameBytes_eq_wire (cls id : Byte) (payload : List Byte) (ckA ckB : Byte) :
    frameBytes cls id payload ckA ckB = wire cls id payload ckA ckB := by
  rw [frameBytes, frameDomain_eq_domain]
  rfl

/-- The FRAME row feeds the bytes of the frame (log entry 10). -/
theorem exec_frame_eq_decFeed (k : Nat) (cls id : Byte) (payload : List Byte) (ckA ckB : Byte) (s : State) :
    exec (.frame k cls id payload ckA ckB) s = exec (.decFeed k (wire cls id payload ckA ckB)) s := by
  rw [← frameBytes_eq_wire]
  rfl

/-- With room for one result the next one fits (R30, R181). -/
theorem Dec.hasRoom_of_room {d : Dec} (h : Room d 1) : d.hasRoom = true := by
  unfold Dec.hasRoom
  split
  · rfl
  · next c hc => exact decide_eq_true (h c hc)

/-- A length within the limit opens the payload, or the checksum where there is no payload (R116). -/
theorem Dec.readLenHi_of_fits {d : Dec} {x : Byte} {n : Half} (hn : assembledLength d.length x = n)
    (hmax : exceedsMax d.params n = false) :
    d.readLenHi x = .took { d.sum x with length := n, stage := if lengthPositive n then .readPayload else .readCkA } := by
  rw [Dec.readLenHi_eq, hn, if_neg (Bool.eq_false_iff.mp hmax)]

/-- The last byte of a frame leaves the canonical idle state with one result more (R119). -/
theorem Dec.readCkB_of_room {d : Dec} {x : Byte} (h : d.hasRoom = true) :
    d.readCkB x = .took (idleDec d.params (d.results ++ [d.verdict x])) := by
  rw [Dec.readCkB_eq, if_pos h]
  rfl

/-- What a frame within the limit gives: itself where its checksum bytes are those of its domain, else the error (R119). -/
def frameResult (cls id : Byte) (payload : List Byte) (ckA ckB : Byte) : Result :=
  if (ckA, ckB) = fletcher (domain cls id payload) then
    .frame { messageClass := cls, messageId := id, payload := payload, checksum := (ckA, ckB) }
  else .error (.checksumMismatch cls id)

section
variable (p : DecoderParams) (q : List Result) (cls id : Byte)

/-- The Decoder that has the header up to the low byte of the length. -/
def Dec.atLenHi (l : Byte) : Dec :=
  { stage := .readLenHi, cls := cls, id := id, length := zext16 l, payload := [], a := (fletcher [cls, id, l]).1,
    b := (fletcher [cls, id, l]).2, rxCkA := 0#8, results := q, params := p }

/-- The Decoder that has the header, with length `n`, and the bytes `payload` of the payload. -/
def Dec.inFrame (n : Half) (payload : List Byte) : Dec :=
  { stage := if payload.length < n.toNat then .readPayload else .readCkA, cls := cls, id := id, length := n, payload := payload,
    a := (fletcher ([cls, id, lo8 n, hi8 n] ++ payload)).1, b := (fletcher ([cls, id, lo8 n, hi8 n] ++ payload)).2,
    rxCkA := 0#8, results := q, params := p }

/-- Five bytes of a header, from the canonical idle state (R111 to R115). -/
theorem Dec.feed_idleDec_atLenHi (l : Byte) (rest : List Byte) :
    (idleDec p q).feed ([sync1, sync2, cls, id, l] ++ rest) = (Dec.atLenHi p q cls id l).feed rest := rfl

/-- The high byte of a length within the limit (R116). -/
theorem Dec.stepByte_atLenHi {n : Half} (hmax : exceedsMax p n = false) :
    (Dec.atLenHi p q cls id (lo8 n)).stepByte (hi8 n) = .took (Dec.inFrame p q cls id n []) := by
  have hlen : assembledLength (zext16 (lo8 n)) (hi8 n) = n := le16_lo8_hi8 n
  refine (Dec.readLenHi_of_fits hlen hmax).trans ?_
  simp only [lengthPositive, decide_eq_true_eq]
  rfl

/-- The payload, all of it (R117). -/
theorem Dec.feed_inFrame {n : Half} {payload : List Byte} (hlen : payload.length = n.toNat)
    (hmax : exceedsMax p n = false) :
    (Dec.inFrame p q cls id n []).feed payload = .took (Dec.inFrame p q cls id n payload) := by
  cases payload with
  | nil => rfl
  | cons x rest =>
    have hpos : 0 < n.toNat := by rw [← hlen]; exact Nat.succ_pos _
    rw [Dec.feed_payload _ (by simp [Dec.inFrame, hpos]) (le_bufferCapacity_of_not_exceedsMax hmax)
      (by simp [Dec.inFrame, hlen])]
    simp only [Dec.inFrame, fletcher_append, hlen]
    simp

/-- The Decoder that has all of a frame but its last byte. -/
def Dec.atCkB (n : Half) (payload : List Byte) (ckA : Byte) : Dec :=
  { Dec.inFrame p q cls id n payload with rxCkA := ckA, stage := .readCkB }

theorem Dec.stepByte_inFrame_ckA {n : Half} {payload : List Byte} (hlen : payload.length = n.toNat) (ckA : Byte) :
    (Dec.inFrame p q cls id n payload).stepByte ckA = .took (Dec.atCkB p q cls id n payload ckA) := by
  have hstage : (Dec.inFrame p q cls id n payload).stage = .readCkA := by simp [Dec.inFrame, hlen]
  rw [Dec.stepByte_eq, hstage]
  rfl

theorem Dec.verdict_atCkB {n : Half} {payload : List Byte} (hlen : payload.length = n.toNat) (ckA ckB : Byte) :
    (Dec.atCkB p q cls id n payload ckA).verdict ckB = frameResult cls id payload ckA ckB := by
  have hdom : domain cls id payload = [cls, id, lo8 n, hi8 n] ++ payload := by
    rw [← frameDomain_eq_domain, frameDomain, lengthField_of_length hlen]
  have hmatch : checksumMatches (Dec.atCkB p q cls id n payload ckA) ckB = true ↔
      (ckA, ckB) = fletcher (domain cls id payload) := by
    rw [hdom, Prod.ext_iff, eq_comm (a := ckA), eq_comm (a := ckB)]
    exact decide_eq_true_iff
  simp only [Dec.verdict, hmatch]
  rfl

/-- A frame within the limit takes the Decoder from the canonical idle state back to it, with one result more (R119, R132). -/
theorem Dec.feed_wire {payload : List Byte} (hfit : payload.length ≤ 65535) (hmax : ¬Exceeds p payload.length)
    (hroom : Room (idleDec p q) 1) (ckA ckB : Byte) :
    (idleDec p q).feed (wire cls id payload ckA ckB) = .took (idleDec p (q ++ [frameResult cls id payload ckA ckB])) := by
  have hlen : payload.length = (lengthField payload).toNat := (lengthField_toNat hfit).symm
  have hmax' : exceedsMax p (lengthField payload) = false :=
    Bool.eq_false_iff.mpr fun hex => hmax (hlen ▸ exceedsMax_iff.mp hex)
  have hbytes : wire cls id payload ckA ckB = [sync1, sync2, cls, id, lo8 (lengthField payload)] ++
      hi8 (lengthField payload) :: (payload ++ [ckA, ckB]) := by
    simp [← frameBytes_eq_wire, frameBytes, frameDomain]
  have hroom' : (Dec.atCkB p q cls id (lengthField payload) payload ckA).hasRoom = true := Dec.hasRoom_of_room hroom
  calc (idleDec p q).feed (wire cls id payload ckA ckB)
    _ = (Dec.atLenHi p q cls id (lo8 (lengthField payload))).feed
          (hi8 (lengthField payload) :: (payload ++ [ckA, ckB])) := by rw [hbytes, Dec.feed_idleDec_atLenHi]
    _ = (Dec.inFrame p q cls id (lengthField payload) []).feed (payload ++ [ckA, ckB]) :=
          Dec.feed_cons_took _ (Dec.stepByte_atLenHi p q cls id hmax')
    _ = (Dec.inFrame p q cls id (lengthField payload) payload).feed [ckA, ckB] :=
          Dec.feed_append_took _ (Dec.feed_inFrame p q cls id hlen hmax')
    _ = (Dec.atCkB p q cls id (lengthField payload) payload ckA).readCkB ckB := by
          rw [Dec.feed_cons_took _ (Dec.stepByte_inFrame_ckA p q cls id hlen ckA), Dec.feed_singleton]
          rfl
    _ = .took (idleDec p (q ++ [frameResult cls id payload ckA ckB])) := by
          rw [Dec.readCkB_of_room hroom', Dec.verdict_atCkB p q cls id hlen]
          rfl

end

/-- Settles O31: `Dec.feed_wire` gives the Decoder after the frame, whose bytes the FRAME row feeds. -/
theorem wholeFrameGivesOneResult : Obligations.WholeFrameGivesOneResult := by
  unfold Obligations.WholeFrameGivesOneResult
  refine ⟨fun s k cls id payload ckA ckB => exec_frame_eq_decFeed k cls id payload ckA ckB s,
    fun s k p q cls id payload ckA ckB hd hfit hmax hroom => ?_⟩
  have hfeed := exec_decFeed_took hd (Dec.feed_wire p q cls id hfit hmax hroom ckA ckB)
  exact ⟨frameResult cls id payload ckA ckB, rfl, (exec_frame_eq_decFeed k cls id payload ckA ckB s).trans hfeed, hfeed⟩

end Sys2Proof.Machine
end

section
/-! ## The checksum over numbers, in closed form, and under changes (R76 to R87) -/

namespace Sys2Proof.Machine

open Sys2Proof.Claim

/-- The loop of R76 over numbers is the fold of `ck_step` over bytes (R77), from any accumulators. -/
theorem loop_eq_foldl_ckStep (d : List Byte) (ab : Byte × Byte) :
    loop (ab.1.toNat, ab.2.toNat) d = ((d.foldl ckStep ab).1.toNat, (d.foldl ckStep ab).2.toNat) := by
  induction d generalizing ab with
  | nil => rfl
  | cons x rest ih =>
    have hstep : loop (ab.1.toNat, ab.2.toNat) (x :: rest) =
        loop ((ckStep ab x).1.toNat, (ckStep ab x).2.toNat) rest := by
      simp only [loop, ckStep, add8, BitVec.toNat_add]
    rw [hstep, ih, List.foldl_cons]

theorem loop_zero_eq_fletcher (d : List Byte) : loop (0, 0) d = ((fletcher d).1.toNat, (fletcher d).2.toNat) :=
  loop_eq_foldl_ckStep d (0#8, 0#8)

/-- Settles O11: the loop over numbers is the checksum that both operations answer from. -/
theorem computeAndVerifyFollowTheLoop : Obligations.ComputeAndVerifyFollowTheLoop := by
  unfold Obligations.ComputeAndVerifyFollowTheLoop
  simp only [loop_zero_eq_fletcher]
  refine ⟨fun s data => ⟨_, _, rfl, rfl⟩, fun s data ea eb => ⟨_, rfl, ?_⟩⟩
  rw [decide_eq_true_iff, Prod.ext_iff, Prod.ext_iff, BitVec.toNat_inj, BitVec.toNat_inj]
  exact and_congr eq_comm eq_comm

/-- Settles O12: every next state is the operation's own; the sums are those of 8-bit addition. -/
theorem streamingChecksumOperations : Obligations.StreamingChecksumOperations := by
  unfold Obligations.StreamingChecksumOperations
  refine fun s => ⟨rfl, fun x => ⟨_, _, rfl, ?_, ?_⟩, rfl, fun ea eb => ⟨_, rfl, decide_eq_true_iff⟩⟩
  · exact BitVec.toNat_add s.ck.a x
  · simp only [ckStep, add8, BitVec.toNat_add]

/-- Each byte of `d` enters `b` once for itself and once for every byte after it, the accumulator `a` once for every byte of `d`
(R85, R86). -/
theorem foldl_ckStep_eq (d : List Byte) (ab : Byte × Byte) :
    d.foldl ckStep ab = (ab.1 + BitVec.ofNat 8 (d.map BitVec.toNat).sum,
      ab.2 + BitVec.ofNat 8 d.length * ab.1 + BitVec.ofNat 8 (weightedSum d)) := by
  induction d generalizing ab with
  | nil => simp [weightedSum]
  | cons x rest ih =>
    rw [List.foldl_cons, ih]
    have hx : ((x.toNat : Nat) : Byte) = x := by simp
    simp only [ckStep, add8, weightedSum, List.map_cons, List.sum_cons, List.length_cons, ← BitVec.natCast_eq_ofNat,
      Nat.cast_add, Nat.cast_mul, Nat.cast_one, hx]
    ext1 <;> ring

theorem fletcher_eq (d : List Byte) :
    fletcher d = (BitVec.ofNat 8 (d.map BitVec.toNat).sum, BitVec.ofNat 8 (weightedSum d)) := by
  simp [fletcher, foldl_ckStep_eq]

/-- The weights `n, n - 1, ..., 1` add up to `n (n + 1) / 2`. -/
theorem two_mul_weightedSum_replicate (n : Nat) (v : Byte) :
    2 * weightedSum (List.replicate n v) = n * (n + 1) * v.toNat := by
  induction n with
  | zero => simp [weightedSum]
  | succ n ih =>
    rw [List.replicate_succ, weightedSum, List.length_replicate, Nat.mul_add, ih]
    ring

theorem fletcher_replicate_256 (v : Byte) : fletcher (List.replicate 256 v) = (0#8, 128#8 * v) := by
  have hweights := two_mul_weightedSum_replicate 256 v
  rw [fletcher_eq, List.map_replicate, List.sum_replicate, smul_eq_mul]
  ext1 <;> apply BitVec.eq_of_toNat_eq
  · rw [BitVec.toNat_ofNat, Nat.mul_mod_right]
    rfl
  · rw [BitVec.toNat_ofNat, BitVec.toNat_mul, BitVec.toNat_ofNat]
    omega

/-- Settles O13: each part is read off the closed form of `fletcher_eq`, or off the first or the last step of the fold. -/
theorem checksumClosedForm : Obligations.ChecksumClosedForm := by
  unfold Obligations.ChecksumClosedForm
  refine ⟨fun d => ?_, fun d => rfl, fun d => ?_, fletcher_replicate_256⟩
  · rw [fletcher_eq]
    exact ⟨BitVec.toNat_ofNat _ _, BitVec.toNat_ofNat _ _⟩
  · simp [fletcher_append_singleton, ckStep, add8]

/-- Changing one byte adds the difference to `a`, and to `b` with the byte's weight (R85, R87). -/
theorem fletcher_change (pre post : List Byte) (x y : Byte) :
    fletcher (pre ++ y :: post) =
      fletcher (pre ++ x :: post) + (y - x, BitVec.ofNat 8 (post.length + 1) * (y - x)) := by
  simp only [fletcher_append, List.foldl_cons, foldl_ckStep_eq post, ckStep, add8, Prod.mk_add_mk,
    ← BitVec.natCast_eq_ofNat, Nat.cast_succ]
  ext1 <;> ring

/-- Changing two bytes: the first difference has the weight of the second position and the distance on top (R87). -/
theorem fletcher_change_two (pre mid post : List Byte) (x y x' y' : Byte) :
    fletcher (pre ++ x' :: mid ++ y' :: post) = fletcher (pre ++ x :: mid ++ y :: post) +
      ((x' - x) + (y' - y), BitVec.ofNat 8 (post.length + 1) * ((x' - x) + (y' - y)) +
        BitVec.ofNat 8 (mid.length + 1) * (x' - x)) := by
  have hlen : (mid ++ y :: post).length + 1 = (post.length + 1) + (mid.length + 1) := by simp; omega
  have hfirst : fletcher (pre ++ x' :: mid ++ y :: post) = fletcher (pre ++ x :: mid ++ y :: post) +
      (x' - x, (BitVec.ofNat 8 (post.length + 1) + BitVec.ofNat 8 (mid.length + 1)) * (x' - x)) := by
    rw [← BitVec.ofNat_add, ← hlen, List.append_assoc, List.append_assoc]
    exact fletcher_change pre (mid ++ y :: post) x x'
  rw [fletcher_change (pre ++ x' :: mid) post y y', hfirst]
  ext1 <;> simp only [Prod.fst_add, Prod.snd_add] <;> ring

/-- An odd number has an inverse modulo 256. -/
theorem eq_zero_of_odd_mul_eq_zero {n : Nat} {x : Byte} (hn : Odd n) (h : BitVec.ofNat 8 n * x = 0#8) : x = 0#8 := by
  have hdvd : 2 ^ 8 ∣ n * x.toNat := by
    have hmod := congrArg BitVec.toNat h
    rw [BitVec.toNat_mul, BitVec.toNat_ofNat, Nat.mod_mul_mod] at hmod
    exact Nat.dvd_of_mod_eq_zero hmod
  have hcop : Nat.Coprime (2 ^ 8) n := (Nat.coprime_two_left.mpr hn).pow_left 8
  exact BitVec.eq_of_toNat_eq (Nat.eq_zero_of_dvd_of_lt (hcop.dvd_of_dvd_mul_left hdvd) x.isLt)

/-- The two changes of R87 cancel: `a` forces opposite differences, and then `b` keeps only the distance. -/
theorem fletcher_change_two_eq_iff (pre mid post : List Byte) (x y x' y' : Byte) :
    fletcher (pre ++ x :: mid ++ y :: post) = fletcher (pre ++ x' :: mid ++ y' :: post) ↔
      (x' - x) + (y' - y) = 0#8 ∧ BitVec.ofNat 8 (mid.length + 1) * (x' - x) = 0#8 := by
  rw [fletcher_change_two pre mid post x y x' y', left_eq_add, Prod.mk_eq_zero]
  refine and_congr_right fun hsum => ?_
  rw [hsum]
  simp

/-- Settles O15: what one change adds to `a`, when two changes cancel, and that an odd distance never lets them. -/
theorem checksumDetectsChanges : Obligations.ChecksumDetectsChanges := by
  unfold Obligations.ChecksumDetectsChanges
  refine ⟨fun pre post x y hne heq => ?_, fletcher_change_two_eq_iff, fun pre mid post x y x' y' hne hmid heq => ?_⟩
  · rw [fletcher_change pre post x y, Prod.fst_add, left_eq_add, sub_eq_zero] at heq
    exact hne heq.symm
  · obtain ⟨-, hdist⟩ := (fletcher_change_two_eq_iff pre mid post x y x' y').mp heq
    have hodd : Odd (mid.length + 1) := (Nat.even_iff.mpr hmid).add_one
    exact hne (sub_eq_zero.mp (eq_zero_of_odd_mul_eq_zero hodd hdist)).symm

end Sys2Proof.Machine
end

section
/-! ## Encoding a frame in one operation (R88 to R91) -/

namespace Sys2Proof.Machine

open Sys2Proof.Claim

theorem oversized_eq_false {payload : List Byte} (h : payload.length ≤ 65535) : oversized payload = false :=
  decide_eq_false (by omega)

theorem oversized_eq_true {payload : List Byte} (h : 65535 < payload.length) : oversized payload = true :=
  decide_eq_true h

/-- The model's frame with its checksum is the claim's. -/
theorem encodedBytes_eq_encoded (cls id : Byte) (payload : List Byte) :
    encodedBytes cls id payload = encoded cls id payload := by
  rw [encodedBytes, frameBytes_eq_wire, frameDomain_eq_domain, encoded]

theorem exec_encEncode_fits (s : State) (cls id : Byte) {payload : List Byte} (h : payload.length ≤ 65535) :
    exec (.encEncode cls id payload) s = .next (s.answer (.bytes (encoded cls id payload))) := by
  simp [exec, execEncEncode, encodeAnswer, oversized_eq_false h, encodedBytes_eq_encoded]

theorem exec_encEncode_oversized (s : State) (cls id : Byte) {payload : List Byte} (h : 65535 < payload.length) :
    exec (.encEncode cls id payload) s = .next (s.answer (.error .oversizedPayload)) := by
  simp [exec, execEncEncode, encodeAnswer, oversized_eq_true h]

section
variable (cls id : Byte) (payload : List Byte) (ckA ckB : Byte)

@[simp] theorem length_wire : (wire cls id payload ckA ckB).length = payload.length + 8 := by
  simp [wire]

/-- Behind the six header bytes stand the payload and the checksum (R57). -/
theorem wire_getElem?_six_add (i : Nat) :
    (wire cls id payload ckA ckB)[6 + i]? = (payload ++ [ckA, ckB])[i]? := by
  rw [Nat.add_comm]
  rfl

/-- Behind the payload stand the two checksum bytes (R57). -/
theorem wire_getElem?_checksum : (wire cls id payload ckA ckB)[6 + payload.length]? = some ckA ∧
    (wire cls id payload ckA ckB)[7 + payload.length]? = some ckB := by
  have hsecond : 7 + payload.length = 6 + (payload.length + 1) := by omega
  rw [hsecond, wire_getElem?_six_add, wire_getElem?_six_add]
  constructor <;> simp

/-- The checksum domain stands between the sync pair and the checksum (R58). -/
theorem wire_domain : ((wire cls id payload ckA ckB).drop 2).take (4 + payload.length) = domain cls id payload := by
  have hdrop : (wire cls id payload ckA ckB).drop 2 = domain cls id payload ++ [ckA, ckB] := rfl
  rw [hdrop]
  exact List.take_left' (by simp [domain]; omega)

end

/-- Settles O16: each index of `wire`, whose checksum domain is the one summed. -/
theorem encodeOutputByIndex : Obligations.EncodeOutputByIndex := by
  unfold Obligations.EncodeOutputByIndex
  refine fun s cls id p => ⟨fun hfit => ?_, exec_encEncode_oversized s cls id⟩
  obtain ⟨hckA, hckB⟩ := wire_getElem?_checksum cls id p (fletcher (domain cls id p)).1 (fletcher (domain cls id p)).2
  refine ⟨encoded cls id p, _, _, exec_encEncode_fits s cls id hfit, length_wire .., rfl, rfl, rfl, rfl, rfl, rfl,
    fun i hi => ?_, hckA, hckB, ?_⟩
  · exact (wire_getElem?_six_add ..).trans (List.getElem?_append_left hi)
  · rw [encoded, wire_domain, loop_zero_eq_fletcher]

end Sys2Proof.Machine
end

section
/-! ## The byte-serial Encoder (R93 to R105)

`Enc.remaining` is what the Encoder has still to hand out: `ENC.START` makes it the frame of `ENC.ENCODE`, each `ENC.NEXT`
takes its first byte, and an Encoder with none left is idle. -/

namespace Sys2Proof.Machine

open Sys2Proof.Claim

section
variable (cls id : Byte) {payload : List Byte} {s : State}

theorem exec_encStart_fits (hs : s.enc.stage = .idle) (h : payload.length ≤ 65535) :
    exec (.encStart cls id payload) s = .next ({ s with enc := Enc.latched cls id payload }.answer .ok) := by
  simp [exec, execEncStart, hs, oversized_eq_false h]

theorem exec_encStart_oversized (hs : s.enc.stage = .idle) (h : 65535 < payload.length) :
    exec (.encStart cls id payload) s = .next (s.answer (.error .oversizedPayload)) := by
  simp [exec, execEncStart, hs, oversized_eq_true h]

theorem exec_encStart_busy (hs : s.enc.stage ≠ .idle) :
    exec (.encStart cls id payload) s = .next (s.answer .refusedBusy) :=
  if_pos hs

end

/-- Settles O17: the three cases of `ENC.START`. -/
theorem startLatchesOrIsTurnedAway : Obligations.StartLatchesOrIsTurnedAway := by
  unfold Obligations.StartLatchesOrIsTurnedAway
  exact fun s cls id p =>
    ⟨fun hs hfit => ⟨lengthField p, lengthField_toNat hfit, exec_encStart_fits cls id hs hfit⟩,
      exec_encStart_oversized cls id, exec_encStart_busy cls id⟩

/-- R100: the test `enc.length > 0`, with its branches in the other order. -/
theorem Enc.takeLenHi_eq (e : Enc) : e.takeLenHi = .ok (some (hi8 e.length),
    { e.sum (hi8 e.length) with stage := if e.length = 0#16 then .ckA else .payload }) := by
  have hpos : (lengthPositive e.length = true) = ¬ e.length = 0#16 := by
    simp [lengthPositive, Nat.pos_iff_ne_zero, BitVec.toNat_eq]
  simp only [Enc.takeLenHi, hpos, ite_not]

/-- R101: where there is a byte at `enc.index`, that byte, and the index counted on without a wrap. -/
theorem Enc.takePayload_eq {e : Enc} {v : Byte} {next : Half} (hread : e.payload[e.index.toNat]? = some v)
    (hnext : next.toNat = e.index.toNat + 1) : e.takePayload = .ok (some v,
      { e.sum v with index := next, stage := if next = e.length then .ckA else .payload }) := by
  have hindex : e.index + 1#16 = next := by bv_omega
  have hlast : (lastPayloadByte e = true) = (next = e.length) := by
    simp [lastPayloadByte, BitVec.toNat_eq, hnext]
  simp only [Enc.takePayload, memRead, hread, hindex, hlast]

/-- An arm that the stage selects hands out by its own row what it hands out by `ENC.NEXT` (R94). -/
theorem handsOut_of_arm {s : State} {i : Instr} {stage : EncStage} {arm : Enc → TxOutcome} {v : Option Byte} {e : Enc}
    (hs : s.enc.stage = stage) (hi : i = txArm stage) (hexec : exec i s = s.onTake stage arm)
    (harm : arm s.enc = .ok (v, e)) : HandsOut s i v e := by
  have hrow : exec i s = .next ({ s with enc := e }.answer (.byte v)) := by
    rw [hexec, State.onTake, if_pos hs, harm, State.handOut]
  have hnext : exec .encNext s = exec i s := by
    rw [hi, ← hs, exec_txArm_stage]
    rfl
  exact ⟨hrow, hnext.trans hrow⟩

/-- Settles O18: each stage's arm, the length bytes and the payload's index read as numbers. -/
theorem encoderStagesHandOutTheFrame : Obligations.EncoderStagesHandOutTheFrame := by
  unfold Obligations.EncoderStagesHandOutTheFrame
  intro s
  refine ⟨fun hs => handsOut_of_arm hs rfl rfl rfl, fun hs => handsOut_of_arm hs rfl rfl rfl,
    fun hs => handsOut_of_arm hs rfl rfl rfl, fun hs => handsOut_of_arm hs rfl rfl rfl,
    fun hs => handsOut_of_arm hs rfl rfl rfl, fun lo hs hlo => ?_, fun hi hs hhi => ?_,
    fun v next hs hread hnext => handsOut_of_arm hs rfl rfl (Enc.takePayload_eq hread hnext),
    fun hs => handsOut_of_arm hs rfl rfl rfl, fun hs => handsOut_of_arm hs rfl rfl rfl⟩
  · obtain rfl : lo = lo8 s.enc.length := BitVec.eq_of_toNat_eq (hlo.trans (lo8_toNat _).symm)
    exact handsOut_of_arm hs rfl rfl rfl
  · obtain rfl : hi = hi8 s.enc.length := BitVec.eq_of_toNat_eq (hhi.trans (hi8_toNat _).symm)
    exact handsOut_of_arm hs rfl rfl (Enc.takeLenHi_eq _)

/-- The bytes the Encoder has still to hand out, the checksum being that of the whole domain from the start. -/
def Enc.remaining (e : Enc) : List Byte :=
  let ab := fletcher (e.header ++ e.payload)
  match e.stage with
  | .idle => []
  | .sync1 => [sync1, sync2] ++ e.header ++ e.payload ++ [ab.1, ab.2]
  | .sync2 => [sync2] ++ e.header ++ e.payload ++ [ab.1, ab.2]
  | .cls => e.header ++ e.payload ++ [ab.1, ab.2]
  | .id => e.header.drop 1 ++ e.payload ++ [ab.1, ab.2]
  | .lenLo => e.header.drop 2 ++ e.payload ++ [ab.1, ab.2]
  | .lenHi => e.header.drop 3 ++ e.payload ++ [ab.1, ab.2]
  | .payload => e.payload.drop e.index.toNat ++ [ab.1, ab.2]
  | .ckA => [ab.1, ab.2]
  | .ckB => [ab.2]

/-- Right after `ENC.START` the whole frame remains. -/
theorem Enc.remaining_latched (cls id : Byte) (payload : List Byte) :
    (Enc.latched cls id payload).remaining = encoded cls id payload :=
  encodedBytes_eq_encoded cls id payload

/-- R101: in stage `Payload` the byte at `enc.index` is the first that remains. -/
theorem Enc.takePayload_remaining {e : Enc} (hs : e.stage = .payload) (hlen : e.payload.length = e.length.toNat)
    (hidx : e.index.toNat < e.length.toNat) :
    ∃ v e', e.takePayload = .ok (some v, e') ∧ e.remaining = v :: e'.remaining := by
  have hin : e.index.toNat < e.payload.length := by omega
  have hnext : (e.index + 1#16).toNat = e.index.toNat + 1 := by bv_omega
  have hdrop : e.payload.drop e.index.toNat = e.payload[e.index.toNat] :: e.payload.drop (e.index.toNat + 1) :=
    List.drop_eq_getElem_cons hin
  refine ⟨_, _, Enc.takePayload_eq (List.getElem?_eq_getElem hin) hnext, ?_⟩
  by_cases hlast : e.index + 1#16 = e.length
  · have hend : e.payload.drop (e.index.toNat + 1) = [] := by
      rw [← hnext, hlast, ← hlen, List.drop_length]
    simp only [Enc.remaining, hs, hdrop, hend, if_pos hlast]
    rfl
  · simp only [Enc.remaining, hs, hdrop, hnext, if_neg hlast]
    rfl

/-- The commuting step: while a frame is being handed out, a take gives the first byte that remains and leaves the others. -/
theorem Enc.take_remaining {e : Enc} (hwf : e.wf = true) (hbusy : e.stage ≠ .idle) :
    ∃ v e', e.take = .ok (some v, e') ∧ e.remaining = v :: e'.remaining := by
  obtain ⟨hlen, hidx, hab⟩ := (Enc.wf_iff hbusy).mp hwf
  cases hs : e.stage with
  | idle => exact absurd hs hbusy
  | sync1 | sync2 | cls | id | lenLo =>
    simp only [Enc.take, hs]
    exact ⟨_, _, rfl, by simp [Enc.remaining, Enc.header, hs]⟩
  | lenHi =>
    simp only [Enc.take, hs]
    refine ⟨_, _, Enc.takeLenHi_eq e, ?_⟩
    have hzero : e.index = 0#16 := by simpa [Enc.indexWf, hs] using hidx
    by_cases hempty : e.length = 0#16
    · have hnil : e.payload = [] := List.eq_nil_of_length_eq_zero (by simp [hlen, hempty])
      simp [Enc.remaining, Enc.header, hs, hempty, hnil]
    · simp [Enc.remaining, Enc.header, hs, hempty, hzero]
  | payload =>
    simp only [Enc.take, hs]
    exact Enc.takePayload_remaining hs hlen (by simpa [Enc.indexWf, hs] using hidx)
  | ckA | ckB =>
    obtain ⟨ha, hb⟩ : e.a = (fletcher (e.header ++ e.payload)).1 ∧ e.b = (fletcher (e.header ++ e.payload)).2 := by
      simpa only [Enc.emitted, hs, Prod.ext_iff] using hab
    simp only [Enc.take, hs]
    exact ⟨_, _, rfl, by simp only [Enc.remaining, hs, ha, hb]; rfl⟩

/-- The state after a frame's last bytes `out` have been handed out. -/
def State.handedOut (s : State) (out : List Byte) : State :=
  { s with enc := Enc.reset, answers := s.answers ++ out.map fun v => .byte (some v) }

/-- As many `ENC.NEXT` as bytes remain hand them all out, and the Encoder ends in its reset state. -/
theorem execAll_encNext_remaining {s : State} {out : List Byte} (hwf : s.enc.wf = true) (hout : s.enc.remaining = out) :
    execAll (List.replicate out.length .encNext) s = .next (s.handedOut out) := by
  induction out generalizing s with
  | nil =>
    have hidle : s.enc.stage = .idle := by
      by_contra hbusy
      obtain ⟨v, e', -, hrem⟩ := Enc.take_remaining hwf hbusy
      exact List.cons_ne_nil v _ (hrem.symm.trans hout)
    have hreset : s.enc = Enc.reset := by simpa [Enc.wf, hidle] using hwf
    simp [execAll, State.handedOut, ← hreset]
  | cons v rest ih =>
    have hbusy : s.enc.stage ≠ .idle := fun hidle => by simp [Enc.remaining, hidle] at hout
    obtain ⟨v', e', htake, hrem⟩ := Enc.take_remaining hwf hbusy
    obtain ⟨rfl, hrest⟩ := List.cons.inj (hrem.symm.trans hout)
    have hnext : exec .encNext s = .next ({ s with enc := e' }.answer (.byte (some v'))) :=
      congrArg s.handOut htake
    simp only [List.length_cons, List.replicate_succ, execAll, hnext]
    rw [ih (Enc.take_wf hwf htake) hrest]
    simp [State.handedOut]

theorem exec_encNext_idle {s : State} (hs : s.enc.stage = .idle) : exec .encNext s = .next (s.answer (.byte none)) := by
  simp [exec, execEncNext, Enc.take, hs, Enc.takeIdle, State.handOut]

/-- From `Idle`: the request latched, its frame handed out, and then none (R105). -/
theorem execAll_encStart_encNext {s : State} (cls id : Byte) {payload : List Byte} (hidle : s.enc.stage = .idle)
    (hfit : payload.length ≤ 65535) :
    execAll (.encStart cls id payload :: List.replicate (payload.length + 8 + 1) .encNext) s =
      .next (((s.answer .ok).handedOut (encoded cls id payload)).answer (.byte none)) := by
  have hlen : (encoded cls id payload).length = payload.length + 8 := length_wire ..
  have hbytes := execAll_encNext_remaining (s := { s with enc := Enc.latched cls id payload }.answer .ok)
    (Enc.latched_wf cls id hfit) (Enc.remaining_latched cls id payload)
  simp only [execAll, exec_encStart_fits cls id hidle hfit, ← hlen, List.replicate_succ']
  rw [execAll_append _ hbytes]
  simp only [execAll]
  rw [exec_encNext_idle rfl]
  rfl

/-- Settles O19: `ENC.START` latches an Encoder with the frame remaining, which as many `ENC.NEXT` hand out. -/
theorem serialEncoderRefinesEncode : Obligations.SerialEncoderRefinesEncode := by
  unfold Obligations.SerialEncoderRefinesEncode
  refine fun s cls id p hidle => ⟨fun hfit => ?_, fun hover => ⟨exec_encEncode_oversized s cls id hover, ?_⟩⟩
  · exact ⟨_, _, exec_encEncode_fits s cls id hfit, length_wire .., execAll_encStart_encNext cls id hidle hfit,
      rfl, rfl, rfl, rfl⟩
  · have hnone : exec .encNext (s.answer (.error .oversizedPayload)) = _ := exec_encNext_idle hidle
    simp only [execAll, exec_encStart_oversized cls id hidle hover, hnone]

end Sys2Proof.Machine
end

section
/-! ## One byte: `DEC.STEP` and the arm a stage selects (R64, R110 to R119, R135)

`exec_rxArm_stage` says that the arm a stage and a byte select is `DEC.STEP`, so the meaning of each row is one equation of
`Dec.stepByte`. -/

namespace Sys2Proof.Machine

open Sys2Proof.Claim

theorem exec_decStep_eq {s : State} {k : Nat} {d : Dec} (hd : s.decs[k]? = some d) (x : Byte) :
    exec (.decStep k x) s = s.settle k (d.stepByte x) := State.onDec_some hd

theorem exec_decStep_took {s : State} {k : Nat} {d d' : Dec} {x : Byte} (hd : s.decs[k]? = some d)
    (h : d.stepByte x = .took d') : exec (.decStep k x) s = .next ((s.setDec k d').answer .done) := by
  rw [exec_decStep_eq hd, h]
  rfl

/-- Settles O8: both words are formed from the stage that also selects the arm. -/
theorem stepAndNextPerformTheSelectedArm : Obligations.StepAndNextPerformTheSelectedArm := by
  unfold Obligations.StepAndNextPerformTheSelectedArm
  refine ⟨fun s k d x hd => ?_, fun s => ⟨txArm s.enc.stage, decode_txWord_code _, (exec_txArm_stage s).symm⟩⟩
  obtain ⟨i, hi, harm⟩ := exec_rxArm_stage hd x
  exact ⟨i, hi, (exec_decStep_eq hd x).trans harm.symm⟩

/-! ### Arms that are not selected -/

theorem State.onArm_unselected {s : State} {k : Nat} {d : Dec} {stage : DecStage} {selected : Bool}
    {arm : Dec → RxOutcome} (hd : s.decs[k]? = some d) (h : d.stage = stage → selected = false) :
    s.onArm k stage selected arm = .refused .armNotSelected := by
  rw [State.onArm, State.onDec_some hd]
  exact if_neg fun hsel => Bool.false_ne_true ((h hsel.1).symm.trans hsel.2)

/-- The arm of a word is refused in every stage but the word's (R110). -/
theorem exec_of_decode_rxWord_other_stage {s : State} {k : Nat} {d : Dec} {st : DecStage} {x : Byte} {i : Instr}
    (hd : s.decs[k]? = some d) (hst : d.stage ≠ st) (hi : decode (.rxWord k (rxWordOf st x)) = .ok i) :
    exec i s = .refused .armNotSelected := by
  have hother : ∀ (selected : Bool) (arm : Dec → RxOutcome),
      s.onArm k st selected arm = .refused .armNotSelected :=
    fun _ _ => State.onArm_unselected hd fun h => absurd h hst
  rw [Laws.RoundTrip.decode_rxWordOf] at hi
  cases hi
  cases st with
  | seekSync1 => dsimp only; split <;> exact hother _ _
  | seekSync2 => dsimp only; split <;> [exact hother _ _; split <;> exact hother _ _]
  | _ => exact hother _ _

theorem exec_txArm_other_stage {s : State} {st : EncStage} (h : s.enc.stage ≠ st) :
    exec (txArm st) s = .refused .armNotSelected := by
  cases st <;> exact if_neg h

/-- Settles O45: the stage, or in the seek stages the byte, is not the one the arm asks for; or there is no Decoder. -/
theorem unselectedArmsAndMissingDecodersAreRefused : Obligations.UnselectedArmsAndMissingDecodersAreRefused := by
  unfold Obligations.UnselectedArmsAndMissingDecodersAreRefused
  refine ⟨fun s k d st x i => exec_of_decode_rxWord_other_stage, fun s k d hd => ?_, fun s st => exec_txArm_other_stage,
    fun s k i => exec_of_missing⟩
  exact ⟨State.onArm_unselected hd fun _ => rfl, State.onArm_unselected hd fun _ => rfl,
    State.onArm_unselected hd fun _ => rfl⟩

/-! ### What each arm makes of the Decoder -/

/-- The arm that the Decoder's stage and the byte select consumes the byte as `DEC.STEP` does. -/
theorem consumes_of_stepByte {s : State} {k : Nat} {d d' : Dec} {st : DecStage} {x : Byte} {i : Instr}
    (hd : s.decs[k]? = some d) (hs : d.stage = st) (hi : decode (.rxWord k (rxWordOf st x)) = .ok i)
    (h : d.stepByte x = .took d') : Consumes s k i x d' := by
  subst hs
  obtain ⟨j, hj, harm⟩ := exec_rxArm_stage hd x
  obtain rfl : j = i := Except.ok.inj (hj.symm.trans hi)
  have hstep := exec_decStep_took hd h
  exact ⟨(harm.trans (exec_decStep_eq hd x).symm).trans hstep, hstep⟩

/-- A length over the limit ends the frame in `PayloadTooLarge` (R116). -/
theorem Dec.readLenHi_of_exceeds {d : Dec} {x : Byte} {n : Half} (hn : assembledLength d.length x = n)
    (hmax : Exceeds d.params n.toNat) (hroom : Room d 1) :
    d.readLenHi x = .took (idleDec d.params (d.results ++ [.error (.payloadTooLarge d.cls d.id n)])) := by
  rw [Dec.readLenHi_eq, hn, if_pos (exceedsMax_iff.mpr hmax), if_pos (Dec.hasRoom_of_room hroom)]
  rfl

section
variable {d : Dec} {x : Byte}

theorem Dec.stepByte_seekSync1_hit (hs : d.stage = .seekSync1) :
    d.stepByte 0xB5#8 = .took { d with stage := .seekSync2 } := by
  rw [Dec.stepByte_eq, hs]
  rfl

theorem Dec.stepByte_seekSync1_other (hs : d.stage = .seekSync1) (hx : x ≠ 0xB5#8) : d.stepByte x = .took d := by
  rw [Dec.stepByte_eq, hs]
  exact congrArg _ (if_neg hx)

theorem Dec.stepByte_seekSync2_hit (hs : d.stage = .seekSync2) :
    d.stepByte 0x62#8 = .took { d with stage := .readClass } := by
  rw [Dec.stepByte_eq, hs]
  rfl

theorem Dec.stepByte_seekSync2_sync1 (hs : d.stage = .seekSync2) : d.stepByte 0xB5#8 = .took d := by
  rw [Dec.stepByte_eq, hs]
  rfl

theorem Dec.stepByte_seekSync2_other (hs : d.stage = .seekSync2) (h2 : x ≠ 0x62#8) (h1 : x ≠ 0xB5#8) :
    d.stepByte x = .took { d with stage := .seekSync1 } := by
  rw [Dec.stepByte_eq, hs]
  exact congrArg _ ((if_neg h2).trans (if_neg h1))

theorem Dec.stepByte_readClass (hs : d.stage = .readClass) :
    d.stepByte x = .took { summed d x with cls := x, stage := .readId } := by
  rw [Dec.stepByte_eq, hs]
  rfl

theorem Dec.stepByte_readId (hs : d.stage = .readId) :
    d.stepByte x = .took { summed d x with id := x, stage := .readLenLo } := by
  rw [Dec.stepByte_eq, hs]
  rfl

theorem zext16_toNat (x : Byte) : (zext16 x).toNat = x.toNat := by
  have hlt := x.isLt
  rw [zext16, BitVec.toNat_setWidth]
  omega

/-- The low length byte is zero-extended (R115). -/
theorem Dec.stepByte_readLenLo {n : Half} (hs : d.stage = .readLenLo) (hn : n.toNat = x.toNat) :
    d.stepByte x = .took { summed d x with length := n, stage := .readLenHi } := by
  obtain rfl : n = zext16 x := BitVec.eq_of_toNat_eq (hn.trans (zext16_toNat x).symm)
  rw [Dec.stepByte_eq, hs]
  rfl

theorem Dec.stepByte_eq_readLenHi (hs : d.stage = .readLenHi) : d.stepByte x = d.readLenHi x := by
  rw [Dec.stepByte_eq, hs]

theorem Dec.stepByte_eq_readPayload (hs : d.stage = .readPayload) : d.stepByte x = d.readPayload x := by
  rw [Dec.stepByte_eq, hs]

theorem Dec.stepByte_eq_readCkB (hs : d.stage = .readCkB) : d.stepByte x = d.readCkB x := by
  rw [Dec.stepByte_eq, hs]

/-- The sum of R116 does not wrap where it is a 16-bit number. -/
theorem assembledLength_eq {low n : Half} (hn : n.toNat = low.toNat + 256 * x.toNat) : assembledLength low x = n := by
  have hlt := n.isLt
  apply BitVec.eq_of_toNat_eq
  simp only [assembledLength, BitVec.toNat_add, BitVec.toNat_mul, BitVec.toNat_ofNat, zext16_toNat]
  omega

theorem Dec.stepByte_readLenHi_exceeds {n : Half} (hs : d.stage = .readLenHi)
    (hn : n.toNat = d.length.toNat + 256 * x.toNat) (hmax : Exceeds d.params n.toNat) (hroom : Room d 1) :
    d.stepByte x = .took (idleDec d.params (d.results ++ [.error (.payloadTooLarge d.cls d.id n)])) :=
  (Dec.stepByte_eq_readLenHi hs).trans (Dec.readLenHi_of_exceeds (assembledLength_eq hn) hmax hroom)

theorem Dec.stepByte_readLenHi_fits {n : Half} (hs : d.stage = .readLenHi)
    (hn : n.toNat = d.length.toNat + 256 * x.toNat) (hmax : ¬Exceeds d.params n.toNat) :
    d.stepByte x =
      .took { summed d x with length := n, stage := if lengthPositive n then .readPayload else .readCkA } := by
  rw [Dec.stepByte_eq_readLenHi hs]
  exact Dec.readLenHi_of_fits (assembledLength_eq hn) (Bool.eq_false_iff.mpr fun hex => hmax (exceedsMax_iff.mp hex))

theorem Dec.stepByte_readPayload (hs : d.stage = .readPayload) (hmore : d.payload.length < d.length.toNat)
    (hcap : d.length.toNat ≤ bufferCapacity d.params) :
    d.stepByte x = .took { summed d x with
      payload := d.payload ++ [x]
      stage := if d.payload.length + 1 = d.length.toNat then .readCkA else .readPayload } := by
  rw [Dec.stepByte_eq_readPayload hs, Dec.readPayload_eq x (hmore.trans_le hcap)]
  simp only [payloadCompletes, decide_eq_true_eq, hs]
  rfl

theorem Dec.stepByte_readCkA (hs : d.stage = .readCkA) :
    d.stepByte x = .took { d with rxCkA := x, stage := .readCkB } := by
  rw [Dec.stepByte_eq, hs]

theorem Dec.stepByte_readCkB (hs : d.stage = .readCkB) (hroom : Room d 1) :
    d.stepByte x = .took (idleDec d.params (d.results ++ [d.verdict x])) :=
  (Dec.stepByte_eq_readCkB hs).trans (Dec.readCkB_of_room (Dec.hasRoom_of_room hroom))

theorem Dec.verdict_of_match (h : d.a = d.rxCkA ∧ d.b = x) : d.verdict x =
    .frame { messageClass := d.cls, messageId := d.id, payload := d.payload, checksum := (d.rxCkA, x) } :=
  if_pos (decide_eq_true h)

theorem Dec.verdict_of_mismatch (h : ¬(d.a = d.rxCkA ∧ d.b = x)) :
    d.verdict x = .error (.checksumMismatch d.cls d.id) :=
  if_neg (by simpa [checksumMatches] using h)

end

/-- Settles O20: the five arms of the seek stages. -/
theorem seekStagesFindTheSyncPair : Obligations.SeekStagesFindTheSyncPair := by
  unfold Obligations.SeekStagesFindTheSyncPair
  intro s k d hd
  refine ⟨fun hs => ⟨consumes_of_stepByte hd hs rfl (Dec.stepByte_seekSync1_hit hs), fun x hx => ?_⟩,
    fun hs => ⟨consumes_of_stepByte hd hs rfl (Dec.stepByte_seekSync2_hit hs),
      consumes_of_stepByte hd hs rfl (Dec.stepByte_seekSync2_sync1 hs), fun x h2 h1 => ?_⟩⟩
  · exact consumes_of_stepByte hd hs (Laws.RoundTrip.rxSeekSync1Other k x (bne_iff_ne.mpr hx))
      (Dec.stepByte_seekSync1_other hs hx)
  · exact consumes_of_stepByte hd hs
      (Laws.RoundTrip.rxSeekSync2Other k x (Bool.and_eq_true_iff.mpr ⟨bne_iff_ne.mpr h2, bne_iff_ne.mpr h1⟩))
      (Dec.stepByte_seekSync2_other hs h2 h1)

/-- Settles O21: the three arms of the header before the length is known. -/
theorem headerStagesStoreAndSum : Obligations.HeaderStagesStoreAndSum := by
  unfold Obligations.HeaderStagesStoreAndSum
  exact fun s k d x hd =>
    ⟨fun hs => consumes_of_stepByte hd hs (Laws.RoundTrip.decode_rxWordOf k _ x) (Dec.stepByte_readClass hs),
      fun hs => consumes_of_stepByte hd hs (Laws.RoundTrip.decode_rxWordOf k _ x) (Dec.stepByte_readId hs),
      fun n hn hs => consumes_of_stepByte hd hs (Laws.RoundTrip.decode_rxWordOf k _ x) (Dec.stepByte_readLenLo hs hn)⟩

/-- Settles O22: over the limit the frame is given up, within it the length says what follows. -/
theorem lengthStageChecksTheLimit : Obligations.LengthStageChecksTheLimit := by
  unfold Obligations.LengthStageChecksTheLimit
  intro s k d x n hd hs hn
  have hconsumes : ∀ {d' : Dec}, d.stepByte x = .took d' → Consumes s k (.rxReadLenHi k x) x d' :=
    consumes_of_stepByte hd hs (Laws.RoundTrip.decode_rxWordOf k _ x)
  refine ⟨fun hmax hroom => hconsumes (Dec.stepByte_readLenHi_exceeds hs hn hmax hroom),
    fun hmax hpos => hconsumes ?_, fun hmax hzero => hconsumes ?_⟩
  · rw [Dec.stepByte_readLenHi_fits hs hn hmax, lengthPositive, decide_eq_true hpos, if_pos rfl]
  · rw [Dec.stepByte_readLenHi_fits hs hn hmax, lengthPositive, hzero]
    rfl

/-- Settles O23: the buffer after the byte is the one before with the byte at its end. -/
theorem payloadStageAppends : Obligations.PayloadStageAppends := by
  unfold Obligations.PayloadStageAppends
  intro s k d x hd hs hmore hmax
  have hcap := le_bufferCapacity_of_not_exceedsMax (Bool.eq_false_iff.mpr fun hex => hmax (exceedsMax_iff.mp hex))
  exact ⟨d.payload ++ [x],
    consumes_of_stepByte hd hs (Laws.RoundTrip.decode_rxWordOf k _ x) (Dec.stepByte_readPayload hs hmore hcap),
    List.length_append, List.getElem?_concat_length, fun i hi => List.getElem?_append_left hi⟩

/-- Settles O24: the first checksum byte is held, and the verdict on the second is the frame or the error. -/
theorem checksumStagesJudgeTheFrame : Obligations.ChecksumStagesJudgeTheFrame := by
  unfold Obligations.ChecksumStagesJudgeTheFrame
  intro s k d x hd
  refine ⟨fun hs => consumes_of_stepByte hd hs (Laws.RoundTrip.decode_rxWordOf k _ x) (Dec.stepByte_readCkA hs),
    fun hs hroom ha hb => ?_, fun hs hroom hne => ?_⟩
  · rw [← Dec.verdict_of_match ⟨ha, hb⟩]
    exact consumes_of_stepByte hd hs (Laws.RoundTrip.decode_rxWordOf k _ x) (Dec.stepByte_readCkB hs hroom)
  · rw [← Dec.verdict_of_mismatch hne]
    exact consumes_of_stepByte hd hs (Laws.RoundTrip.decode_rxWordOf k _ x) (Dec.stepByte_readCkB hs hroom)

/-- Settles O26, stage by stage: each row of the table is an equation of `Dec.stepByte`, whose hypotheses the invariant gives. -/
theorem stepTakesAListedTransition : Obligations.StepTakesAListedTransition := by
  unfold Obligations.StepTakesAListedTransition
  intro s k d x hd hwf hroom
  obtain ⟨-, hf, -, -⟩ := Dec.wf_iff.mp hwf
  cases hs : d.stage with
  | seekSync1 =>
    by_cases hx : x = 0xB5#8
    · subst hx
      exact ⟨_, exec_decStep_took hd (Dec.stepByte_seekSync1_hit hs), by simp⟩
    · exact ⟨_, exec_decStep_took hd (Dec.stepByte_seekSync1_other hs hx), by simp [hs, hx]⟩
  | seekSync2 =>
    by_cases h2 : x = 0x62#8
    · subst h2
      exact ⟨_, exec_decStep_took hd (Dec.stepByte_seekSync2_hit hs), by simp⟩
    · by_cases h1 : x = 0xB5#8
      · subst h1
        exact ⟨_, exec_decStep_took hd (Dec.stepByte_seekSync2_sync1 hs), by simp [hs]⟩
      · exact ⟨_, exec_decStep_took hd (Dec.stepByte_seekSync2_other hs h2 h1), by simp [h1, h2]⟩
  | readClass => exact ⟨_, exec_decStep_took hd (Dec.stepByte_readClass hs), by simp [summed]⟩
  | readId => exact ⟨_, exec_decStep_took hd (Dec.stepByte_readId hs), by simp [summed]⟩
  | readLenLo =>
    exact ⟨_, exec_decStep_took hd (Dec.stepByte_readLenLo hs (zext16_toNat x)), by simp [summed]⟩
  | readLenHi =>
    obtain ⟨hlow, -, -⟩ : d.length.toNat < 256 ∧ d.payload = [] ∧ d.rxCkA = 0#8 := by
      simpa [Dec.fieldsWf, hs] using hf
    have hn := assembledLength_toNat (x := x) hlow
    by_cases hmax : Exceeds d.params (assembledLength d.length x).toNat
    · refine ⟨_, exec_decStep_took hd (Dec.stepByte_readLenHi_exceeds hs hn hmax hroom), ?_⟩
      simp only [reduceCtorEq, false_and, false_or, or_false, true_and]
      exact ⟨_, hn, .inl ⟨hmax, rfl, rfl⟩⟩
    · refine ⟨_, exec_decStep_took hd (Dec.stepByte_readLenHi_fits hs hn hmax), ?_⟩
      simp only [reduceCtorEq, false_and, false_or, or_false, true_and]
      obtain hzero | hpos := Nat.eq_zero_or_pos (assembledLength d.length x).toNat
      · exact ⟨_, hn, .inr (.inr ⟨hmax, hzero, by simp [lengthPositive, hzero], rfl⟩)⟩
      · exact ⟨_, hn, .inr (.inl ⟨hmax, hpos, by simp [lengthPositive, hpos], rfl⟩)⟩
  | readPayload =>
    obtain ⟨hmore, hcap, -⟩ : d.payload.length < d.length.toNat ∧ d.length.toNat ≤ bufferCapacity d.params ∧
        d.rxCkA = 0#8 := by simpa [Dec.fieldsWf, hs] using hf
    refine ⟨_, exec_decStep_took hd (Dec.stepByte_readPayload hs hmore hcap), ?_⟩
    by_cases hlast : d.payload.length + 1 = d.length.toNat <;> simp [summed, hlast]
  | readCkA => exact ⟨_, exec_decStep_took hd (Dec.stepByte_readCkA hs), by simp⟩
  | readCkB =>
    refine ⟨_, exec_decStep_took hd (Dec.stepByte_readCkB hs hroom), ?_⟩
    by_cases hmatch : d.a = d.rxCkA ∧ d.b = x
    · simp [Dec.verdict_of_match hmatch, hmatch, idleDec]
    · simp [Dec.verdict_of_mismatch hmatch, hmatch, idleDec]

end Sys2Proof.Machine
end

section
/-! ## A chunk, as what it makes of one Decoder (R109, R130) -/

namespace Sys2Proof.Machine

open Sys2Proof.Claim

theorem exec_decFeed_eq {s : State} {k : Nat} {d : Dec} (hd : s.decs[k]? = some d) (bytes : List Byte) :
    exec (.decFeed k bytes) s = s.settle k (d.feed bytes) := State.onDec_some hd

/-- What comes of bytes given to Decoder `k` replaces it, whatever stood there before. -/
@[simp] theorem State.settle_setDec (s : State) (k : Nat) (d : Dec) (o : RxOutcome) :
    (s.setDec k d).settle k o = s.settle k o := by
  cases o <;> simp only [State.settle, State.setDec_setDec]

/-- The bytes after a piece consumed whole do what they do from where the piece left off (R130). -/
theorem exec_decFeed_append {s : State} {k : Nat} {d d1 : Dec} {c1 : List Byte} (hd : s.decs[k]? = some d)
    (h : d.feed c1 = .took d1) (c2 : List Byte) :
    exec (.decFeed k (c1 ++ c2)) s = exec (.decFeed k c2) (s.setDec k d1) := by
  rw [exec_decFeed_eq hd, exec_decFeed_eq (State.setDec_get hd d1), Dec.feed_append_took c2 h, State.settle_setDec]

end Sys2Proof.Machine
end

section
/-! ## Whole frames: one over the limit, and one encoded and decoded again (R127, R132, R133) -/

namespace Sys2Proof.Machine

open Sys2Proof.Claim

/-! ### A frame over the limit -/

/-- The six header bytes of a frame that declares `n` payload bytes (R57). -/
def frameHeader (cls id : Byte) (n : Half) : List Byte :=
  [0xB5#8, 0x62#8, cls, id, BitVec.ofNat 8 n.toNat, BitVec.ofNat 8 (n.toNat / 256)]

@[simp] theorem length_frameHeader (cls id : Byte) (n : Half) : (frameHeader cls id n).length = 6 := rfl

theorem ofNat_eq_lo8 (n : Half) : BitVec.ofNat 8 n.toNat = lo8 n := by
  apply BitVec.eq_of_toNat_eq
  rw [lo8_toNat, BitVec.toNat_ofNat]

theorem ofNat_div_eq_hi8 (n : Half) : BitVec.ofNat 8 (n.toNat / 256) = hi8 n := by
  apply BitVec.eq_of_toNat_eq
  rw [hi8_toNat, BitVec.toNat_ofNat, Nat.mod_eq_of_lt (by omega)]

/-- The header of a frame over the limit is all that is consumed of it, and leaves the canonical idle state (R132, R133). -/
theorem Dec.feed_frameHeader_of_exceeds (p : DecoderParams) (q : List Result) (cls id : Byte) {n : Half}
    (hmax : Exceeds p n.toNat) (hroom : Room (idleDec p q) 1) :
    (idleDec p q).feed (frameHeader cls id n) = .took (idleDec p (q ++ [.error (.payloadTooLarge cls id n)])) := by
  have hbytes : frameHeader cls id n = [sync1, sync2, cls, id, lo8 n] ++ [hi8 n] := by
    rw [frameHeader, ofNat_eq_lo8, ofNat_div_eq_hi8]
    rfl
  have hlen : assembledLength (Dec.atLenHi p q cls id (lo8 n)).length (hi8 n) = n := le16_lo8_hi8 n
  rw [hbytes, Dec.feed_idleDec_atLenHi, Dec.feed_singleton]
  exact Dec.readLenHi_of_exceeds hlen hmax hroom

/-- Settles O32: the header is a piece consumed whole, and the other bytes follow it. -/
theorem oversizedFrameCostsSixBytes : Obligations.OversizedFrameCostsSixBytes := by
  unfold Obligations.OversizedFrameCostsSixBytes
  intro s k p q cls id n rest hd hmax hroom
  exact exec_decFeed_append hd (Dec.feed_frameHeader_of_exceeds p q cls id hmax hroom) rest

/-! ### A frame encoded and decoded -/

theorem room_idleDec_of_wf {p : DecoderParams} (h : p.wf = true) : Room (idleDec p []) 1 := by
  intro c hc
  have hc : p.queueCap = some c := hc
  have hpos : 1 ≤ c := by simpa [DecoderParams.wf, hc] using h
  simpa [idleDec] using hpos

/-- An encoded frame is received as it was sent (R119). -/
theorem frameResult_encoded (cls id : Byte) (payload : List Byte) :
    frameResult cls id payload (fletcher (domain cls id payload)).1 (fletcher (domain cls id payload)).2 =
      .frame { messageClass := cls, messageId := id, payload := payload, checksum := fletcher (domain cls id payload) } :=
  if_pos rfl

/-- An encoded frame within the limit is decoded (R127). -/
theorem Dec.feed_encoded (p : DecoderParams) (q : List Result) (cls id : Byte) {payload : List Byte}
    (hfit : payload.length ≤ 65535) (hmax : ¬Exceeds p payload.length) (hroom : Room (idleDec p q) 1) :
    (idleDec p q).feed (encoded cls id payload) = .took (idleDec p (q ++ [.frame
      { messageClass := cls, messageId := id, payload := payload, checksum := fletcher (domain cls id payload) }])) := by
  rw [encoded, Dec.feed_wire p q cls id hfit hmax hroom, frameResult_encoded]

/-- A frame starts with its header (R57). -/
theorem wire_eq_header_append (cls id : Byte) {payload : List Byte} {n : Half} (hn : n.toNat = payload.length)
    (ckA ckB : Byte) : wire cls id payload ckA ckB = frameHeader cls id n ++ (wire cls id payload ckA ckB).drop 6 := by
  rw [frameHeader, hn]
  rfl

/-- Settles O33: within the limit the Decoder takes the whole frame (`Dec.feed_encoded`), over it the header alone
(`Dec.feed_frameHeader_of_exceeds`); the checksum is the one `CK.VERIFY` computes over the domain. -/
theorem encodedFrameRoundTrips : Obligations.EncodedFrameRoundTrips := by
  unfold Obligations.EncodedFrameRoundTrips
  intro s k p cls id payload hd hp hfit
  have hroom := room_idleDec_of_wf hp
  obtain ⟨hckA, hckB⟩ := wire_getElem?_checksum cls id payload (fletcher (domain cls id payload)).1
    (fletcher (domain cls id payload)).2
  refine ⟨encoded cls id payload, _, _, exec_encEncode_fits s cls id hfit, hckA, hckB, ?_,
    fun hmax => exec_decFeed_took hd (Dec.feed_encoded p [] cls id hfit hmax hroom), fun n hn hmax => ?_⟩
  · simp only [exec, execCkVerify, encoded, wire_domain, decide_true]
  · have hheader := exec_decFeed_append hd (Dec.feed_frameHeader_of_exceeds p [] cls id (hn ▸ hmax) hroom)
      ((encoded cls id payload).drop 6)
    rwa [encoded, ← wire_eq_header_append cls id hn, ← encoded] at hheader

end Sys2Proof.Machine
end

section
/-! ## The queue plays no part in the parse, but for its room (R30, R109, R130, R181)

`Dec.feed_adds` says it once: a chunk consumed whole is consumed in the same way with any other queue and any other capacity that
has room for the results it produced. -/

namespace Sys2Proof.Machine

open Sys2Proof.Claim

/-- The Decoder with another queue, of another capacity. -/
def Dec.withQueue (d : Dec) (q : List Result) (cap : Option Nat) : Dec :=
  { d with results := q, params := { d.params with queueCap := cap } }

/-- The results `new` fit behind the queue `q`, where there are any. -/
def RoomFor (cap : Option Nat) (q new : List Result) : Prop :=
  new = [] ∨ ∀ c, cap = some c → q.length + new.length ≤ c

theorem roomFor_nil (cap : Option Nat) (q : List Result) : RoomFor cap q [] := .inl rfl

theorem roomFor_append {cap : Option Nat} {q n1 n2 : List Result} :
    RoomFor cap q (n1 ++ n2) ↔ RoomFor cap q n1 ∧ RoomFor cap (q ++ n1) n2 := by
  constructor
  · rintro (h | h)
    · obtain ⟨rfl, rfl⟩ := List.append_eq_nil_iff.mp h
      exact ⟨.inl rfl, .inl rfl⟩
    · simp only [List.length_append] at h
      refine ⟨.inr fun c hc => ?_, .inr fun c hc => ?_⟩
      · have hle := h c hc
        omega
      · have hle := h c hc
        rw [List.length_append]
        omega
  · rintro ⟨h1, rfl | h2⟩
    · rwa [List.append_nil]
    · simp only [List.length_append] at h2
      refine .inr fun c hc => ?_
      have hle := h2 c hc
      rw [List.length_append]
      omega

/-- A shorter queue has room for what a longer one has room for. -/
theorem RoomFor.of_length_le {cap : Option Nat} {q q' new : List Result} (h : RoomFor cap q new)
    (hle : q'.length ≤ q.length) : RoomFor cap q' new :=
  h.imp_right fun h c hc => (Nat.add_le_add_right hle _).trans (h c hc)

theorem Dec.hasRoom_iff_roomFor {d : Dec} (r : Result) : d.hasRoom = true ↔ RoomFor d.params.queueCap d.results [r] := by
  unfold Dec.hasRoom RoomFor
  cases d.params.queueCap <;> simp

/-- On the way from `d` to `d'`, `run` adds the results `new`, and takes the same way with every other queue that has room for
them. -/
def Adds (run : Dec → RxOutcome) (d d' : Dec) (new : List Result) : Prop :=
  d'.results = d.results ++ new ∧ RoomFor d.params.queueCap d.results new ∧
    ∀ q cap, RoomFor cap q new → run (d.withQueue q cap) = .took (d'.withQueue (q ++ new) cap)

theorem adds_nil {run : Dec → RxOutcome} {d d' : Dec} (hr : d'.results = d.results)
    (h : ∀ q cap, run (d.withQueue q cap) = .took (d'.withQueue q cap)) : Adds run d d' [] :=
  ⟨by rw [hr, List.append_nil], roomFor_nil _ _, fun q cap _ => by rw [List.append_nil]; exact h q cap⟩

section
variable {d d' : Dec} {x : Byte}

/-- A byte that ends no frame. -/
theorem adds_of_same_queue {e : Dec} (h : d.stepByte x = .took d') (he : d.stepByte x = .took e)
    (hr : e.results = d.results) (hq : ∀ q cap, (d.withQueue q cap).stepByte x = .took (e.withQueue q cap)) :
    ∃ new, Adds (·.stepByte x) d d' new := by
  cases he.symm.trans h
  exact ⟨[], adds_nil hr hq⟩

/-- A byte that ends a frame with the result `r`, or is held back. -/
theorem adds_of_result (h : d.stepByte x = .took d') (r : Result)
    (hq : ∀ q cap, (d.withQueue q cap).stepByte x =
      if (d.withQueue q cap).hasRoom then .took (idleDec (d.withQueue q cap).params (q ++ [r]))
      else .held (d.withQueue q cap) [x]) : ∃ new, Adds (·.stepByte x) d d' new := by
  have hd := hq d.results d.params.queueCap
  split at hd
  · next hroom =>
    cases hd.symm.trans h
    exact ⟨[r], rfl, (Dec.hasRoom_iff_roomFor r).mp hroom, fun q cap hfit => (hq q cap).trans (if_pos ((Dec.hasRoom_iff_roomFor r).mpr hfit))⟩
  · cases hd.symm.trans h

/-- One byte adds the result it completes, or none. -/
theorem Dec.stepByte_adds (h : d.stepByte x = .took d') : ∃ new, Adds (·.stepByte x) d d' new := by
  cases hs : d.stage with
  | seekSync1 =>
    by_cases hx : x = 0xB5#8
    · subst hx
      exact adds_of_same_queue h (Dec.stepByte_seekSync1_hit hs) rfl fun _ _ => Dec.stepByte_seekSync1_hit hs
    · exact adds_of_same_queue h (Dec.stepByte_seekSync1_other hs hx) rfl fun _ _ => Dec.stepByte_seekSync1_other hs hx
  | seekSync2 =>
    by_cases h2 : x = 0x62#8
    · subst h2
      exact adds_of_same_queue h (Dec.stepByte_seekSync2_hit hs) rfl fun _ _ => Dec.stepByte_seekSync2_hit hs
    · by_cases h1 : x = 0xB5#8
      · subst h1
        exact adds_of_same_queue h (Dec.stepByte_seekSync2_sync1 hs) rfl fun _ _ => Dec.stepByte_seekSync2_sync1 hs
      · exact adds_of_same_queue h (Dec.stepByte_seekSync2_other hs h2 h1) rfl
          fun _ _ => Dec.stepByte_seekSync2_other hs h2 h1
  | readClass => exact adds_of_same_queue h (Dec.stepByte_readClass hs) rfl fun _ _ => Dec.stepByte_readClass hs
  | readId => exact adds_of_same_queue h (Dec.stepByte_readId hs) rfl fun _ _ => Dec.stepByte_readId hs
  | readLenLo =>
    have hn := zext16_toNat x
    exact adds_of_same_queue h (Dec.stepByte_readLenLo hs hn) rfl fun _ _ => Dec.stepByte_readLenLo hs hn
  | readLenHi =>
    have hq : ∀ q cap, (d.withQueue q cap).stepByte x = (d.withQueue q cap).readLenHi x :=
      fun _ _ => Dec.stepByte_eq_readLenHi hs
    simp only [Dec.readLenHi_eq] at hq
    by_cases hmax : exceedsMax d.params (assembledLength d.length x) = true
    · exact adds_of_result h (.error (.payloadTooLarge d.cls d.id (assembledLength d.length x)))
        fun q cap => (hq q cap).trans (if_pos hmax)
    · exact adds_of_same_queue h ((hq d.results d.params.queueCap).trans (if_neg hmax)) rfl
        fun q cap => (hq q cap).trans (if_neg hmax)
  | readPayload =>
    have hq : ∀ q cap, (d.withQueue q cap).stepByte x = (d.withQueue q cap).readPayload x :=
      fun _ _ => Dec.stepByte_eq_readPayload hs
    have hd : d.stepByte x = d.readPayload x := hq d.results d.params.queueCap
    by_cases hcap : d.payload.length < bufferCapacity d.params
    · exact adds_of_same_queue h (hd.trans (Dec.readPayload_eq x hcap)) rfl
        fun q cap => (hq q cap).trans (Dec.readPayload_eq x hcap)
    · cases (hd.trans (Dec.readPayload_fault x hcap)).symm.trans h
  | readCkA => exact adds_of_same_queue h (Dec.stepByte_readCkA hs) rfl fun _ _ => Dec.stepByte_readCkA hs
  | readCkB =>
    exact adds_of_result h (d.verdict x) fun q cap =>
      (Dec.stepByte_eq_readCkB (d := d.withQueue q cap) hs).trans (Dec.readCkB_eq (d.withQueue q cap) x)

end

/-- A chunk adds the results its bytes complete (R49, R109). -/
theorem Dec.feed_adds {d d' : Dec} {bytes : List Byte} (h : d.feed bytes = .took d') :
    ∃ new, Adds (·.feed bytes) d d' new := by
  induction bytes generalizing d with
  | nil => cases h; exact ⟨[], adds_nil rfl fun q cap => rfl⟩
  | cons x rest ih =>
    cases hx : d.stepByte x with
    | took d1 =>
      obtain ⟨n1, hr1, hroom1, hq1⟩ := Dec.stepByte_adds hx
      obtain ⟨n2, hr2, hroom2, hq2⟩ := ih ((Dec.feed_cons_took rest hx).symm.trans h)
      have hcap : d1.params = d.params := (Dec.stepByte_took hx).1
      refine ⟨n1 ++ n2, by rw [hr2, hr1, List.append_assoc], roomFor_append.mpr ⟨hroom1, ?_⟩, fun q cap hq => ?_⟩
      · rwa [hcap, hr1] at hroom2
      · obtain ⟨hfit1, hfit2⟩ := roomFor_append.mp hq
        exact (Dec.feed_cons_took rest (hq1 q cap hfit1)).trans (List.append_assoc q n1 n2 ▸ hq2 _ _ hfit2)
    | held d1 r => simp [Dec.feed, hx] at h
    | fault r => simp [Dec.feed, hx] at h

/-- With an unbounded queue every chunk is consumed whole (R25, R28, R109). -/
theorem Dec.feed_took_of_unbounded {d : Dec} (hcap : d.params.queueCap = none) (hf : d.fieldsWf = true)
    (bytes : List Byte) : ∃ e, d.feed bytes = .took e := by
  induction bytes generalizing d with
  | nil => exact ⟨d, rfl⟩
  | cons x rest ih =>
    have hkeeps := Dec.stepByte_keeps_fieldsWf d x hf
    cases hx : d.stepByte x with
    | took d1 =>
      rw [hx] at hkeeps
      rw [Dec.feed_cons_took rest hx]
      exact ih ((congrArg _ (Dec.stepByte_took hx).1).trans hcap) hkeeps
    | held d1 r =>
      obtain ⟨-, -, hfull⟩ := Dec.stepByte_held hx
      rw [Dec.hasRoom_of_unbounded hcap] at hfull
      cases hfull
    | fault r =>
      rw [hx] at hkeeps
      exact hkeeps.elim

/-- With the capacity it has, only the queue is another one. -/
theorem Dec.withQueue_of_params {d : Dec} {p : DecoderParams} (h : d.params = p) (q : List Result) :
    d.withQueue q p.queueCap = { d with results := q } := by
  subst h
  rfl

/-- Where the results of a chunk fit the queue, its capacity makes no difference (R181). -/
theorem Dec.feed_of_unbounded {d e : Dec} {bytes : List Byte} (h : (unbounded d).feed bytes = .took e)
    (hfit : Fits d.params e) : d.feed bytes = .took { e with params := d.params } := by
  obtain ⟨new, hr, -, hq⟩ := Dec.feed_adds h
  have hp : e.params = (unbounded d).params := (Dec.feed_keeps (.inl h)).1
  have hr : d.results ++ new = e.results := hr.symm
  have hroom : RoomFor d.params.queueCap d.results new := .inr fun c hc => by
    rw [← List.length_append, hr]
    exact hfit c hc
  have hfeed : d.feed bytes = .took (e.withQueue (d.results ++ new) d.params.queueCap) :=
    hq d.results d.params.queueCap hroom
  rwa [hr, Dec.withQueue, hp] at hfeed

/-- Results polled before a chunk are the first ones of the queue after it (R123). -/
theorem Dec.feed_of_polled {d d' : Dec} {bytes : List Byte} (h : d.feed bytes = .took d') {n : Nat}
    (hn : n ≤ d.results.length) :
    ({ d with results := d.results.drop n } : Dec).feed bytes = .took { d' with results := d'.results.drop n } := by
  obtain ⟨new, hr, hroom, hq⟩ := Dec.feed_adds h
  have hshort : (d.results.drop n).length ≤ d.results.length := by
    rw [List.length_drop]
    exact Nat.sub_le _ _
  have hfeed := hq (d.results.drop n) d.params.queueCap (hroom.of_length_le hshort)
  rwa [← List.drop_append_of_le_length hn, ← hr, Dec.withQueue_of_params (Dec.feed_keeps (.inl h)).1] at hfeed

end Sys2Proof.Machine
end

section
/-! ## Chunks, steps and polls, as the caller sees them (R109, R122, R123, R130) -/

namespace Sys2Proof.Machine

open Sys2Proof.Claim

section
variable {s : State} {k : Nat} {d d' : Dec}

/-- Operations on one Decoder leave its last value and all their answers. -/
@[simp] theorem State.answer_setDec (s : State) (v : Answer) (k : Nat) (d : Dec) :
    (s.answer v).setDec k d = (s.setDec k d).answer v := rfl

/-- What a Decoder became, and what was answered, can be read off the state. -/
theorem State.setDec_answer_inj {v v' : Answer} {e : Dec} (hd : s.decs[k]? = some d) :
    (s.setDec k e).answer v = (s.setDec k d').answer v' ↔ e = d' ∧ v = v' := by
  refine ⟨fun h => ⟨?_, ?_⟩, fun ⟨he, hv⟩ => he ▸ hv ▸ rfl⟩
  · have hget := congrArg (·.decs[k]?) h
    simp only [State.answer_decs, State.setDec_get hd, Option.some.injEq] at hget
    exact hget
  · have hlast := congrArg (·.answers) h
    simpa using hlast

theorem State.settle_eq_done_iff {o : RxOutcome} (hd : s.decs[k]? = some d) :
    s.settle k o = .next ((s.setDec k d').answer .done) ↔ o = .took d' := by
  cases o with
  | took e => simp [State.settle, State.setDec_answer_inj hd]
  | held e rest => simp [State.settle, State.setDec_answer_inj hd]
  | fault r => simp [State.settle]

theorem exec_decFeed_eq_done_iff {bytes : List Byte} (hd : s.decs[k]? = some d) :
    exec (.decFeed k bytes) s = .next ((s.setDec k d').answer .done) ↔ d.feed bytes = .took d' := by
  rw [exec_decFeed_eq hd, State.settle_eq_done_iff hd]

end

/-- A run only adds answers (R186). -/
theorem execAll_answers {is : List Instr} {s t : State} (h : execAll is s = .next t) :
    ∃ vs, t.answers = s.answers ++ vs := by
  induction is generalizing s with
  | nil => cases h; exact ⟨[], (List.append_nil _).symm⟩
  | cons i is ih =>
    simp only [execAll] at h
    cases hi : exec i s with
    | next u =>
      rw [hi] at h
      obtain ⟨-, -, -, -, v, hv⟩ := operationsChangeTheirOwnInstanceOnly i s u hi
      obtain ⟨vs, hvs⟩ := ih h
      exact ⟨v :: vs, by rw [hvs, hv, List.append_assoc, List.singleton_append]⟩
    | fault r => rw [hi] at h; cases h
    | refused r => rw [hi] at h; cases h

/-- The state after `n` operations without a result that leave `d` in the place of Decoder `k`. -/
def State.stepped (s : State) (k : Nat) (d : Dec) (n : Nat) : State :=
  { s.setDec k d with answers := s.answers ++ List.replicate n .done }

theorem State.stepped_succ (s : State) (k : Nat) (d d' : Dec) (n : Nat) :
    ((s.setDec k d).answer .done).stepped k d' n = s.stepped k d' (n + 1) := by
  simp [State.stepped, State.answer, State.setDec, List.replicate_succ]

/-- A chunk consumed whole is the `DEC.STEP`s of its bytes, each of them taken (R109). -/
theorem Dec.feed_took_iff_execAll_decStep {s : State} {k : Nat} {d d' : Dec} (bytes : List Byte)
    (hd : s.decs[k]? = some d) :
    d.feed bytes = .took d' ↔ execAll (bytes.map (.decStep k)) s = .next (s.stepped k d' bytes.length) := by
  induction bytes generalizing s d with
  | nil =>
    refine ⟨fun h => ?_, fun h => ?_⟩
    · cases h
      simp [execAll, State.stepped, State.setDec_self hd]
    · have hstate : s = s.stepped k d' 0 := Host.Outcome.next.inj h
      have hget : (s.stepped k d' 0).decs[k]? = some d' := State.setDec_get hd d'
      rw [← hstate, hd] at hget
      exact congrArg _ (Option.some.inj hget)
  | cons x rest ih =>
    simp only [List.map_cons, execAll, exec_decStep_eq hd, Dec.feed, List.length_cons]
    cases d.stepByte x with
    | took d1 =>
      simp only [State.settle]
      rw [← State.stepped_succ s k d1]
      exact ih (State.setDec_get hd d1)
    | held d1 r =>
      simp only [State.settle, reduceCtorEq, false_iff]
      intro h
      obtain ⟨vs, hvs⟩ := execAll_answers h
      simp [State.stepped, List.replicate_succ] at hvs
    | fault r => simp [State.settle]

/-- Settles O27: the induction over the chunk's bytes, and a capacity that makes no difference where the results fit. -/
theorem feedIsItsSteps : Obligations.FeedIsItsSteps := by
  unfold Obligations.FeedIsItsSteps
  refine ⟨fun s k d d' bytes hd => ?_, fun s k d bytes hd hwf => ?_⟩
  · rw [exec_decFeed_eq_done_iff hd]
    exact Dec.feed_took_iff_execAll_decStep bytes hd
  · obtain ⟨-, hf, -, -⟩ := Dec.wf_iff.mp hwf
    obtain ⟨e, he⟩ := Dec.feed_took_of_unbounded (d := unbounded d) rfl hf bytes
    refine ⟨e, ?_, fun hfit => exec_decFeed_took hd (Dec.feed_of_unbounded he hfit)⟩
    rw [exec_decFeed_took (State.setDec_get hd _) he, State.setDec_setDec]

/-! ### Polls -/

section
variable {s : State} {k : Nat} {d : Dec}

theorem exec_decPoll_nil (hd : s.decs[k]? = some d) (hq : d.results = []) :
    exec (.decPoll k) s = .next (s.answer (.result none)) := by
  simp only [exec, execDecPoll, State.onDec_some hd, hq]

theorem exec_decPoll_cons {r : Result} {rest : List Result} (hd : s.decs[k]? = some d) (hq : d.results = r :: rest) :
    exec (.decPoll k) s = .next ((s.setDec k { d with results := rest }).answer (.result (some r))) := by
  simp only [exec, execDecPoll, State.onDec_some hd, hq]

/-- A poll in one equation: the oldest result, if any, is returned and removed. -/
theorem exec_decPoll_eq (hd : s.decs[k]? = some d) : exec (.decPoll k) s =
    .next ((s.setDec k { d with results := d.results.drop (min 1 d.results.length) }).answer (.result d.results.head?)) := by
  cases hq : d.results with
  | nil =>
    have hsame : ({ d with results := [] } : Dec) = d := by rw [← hq]
    rw [exec_decPoll_nil hd hq, List.drop_nil, hsame, State.setDec_self hd]
    rfl
  | cons r rest =>
    rw [exec_decPoll_cons hd hq]
    simp

end

/-- As many polls as there are results return them all, and one more returns none. -/
theorem execAll_decPoll {s : State} {k : Nat} {d : Dec} (hd : s.decs[k]? = some d) :
    execAll (List.replicate (d.results.length + 1) (.decPoll k)) s =
      .next { s.setDec k { d with results := [] } with
        answers := s.answers ++ d.results.map (fun r => .result (some r)) ++ [.result none] } := by
  generalize hq : d.results = q
  induction q generalizing s d with
  | nil =>
    have hsame : ({ d with results := [] } : Dec) = d := by rw [← hq]
    rw [hsame, State.setDec_self hd]
    simp [execAll, exec_decPoll_nil hd hq, State.answer]
  | cons r rest ih =>
    have hget : ((s.setDec k { d with results := rest }).answer (.result (some r))).decs[k]? = _ := State.setDec_get hd _
    rw [List.length_cons, List.replicate_succ, execAll, exec_decPoll_cons hd hq]
    refine (ih hget rfl).trans ?_
    simp [State.setDec, State.answer]

/-- Settles O29: one poll of each kind of queue, and the induction over the queue. -/
theorem pollingDrainsInOrder : Obligations.PollingDrainsInOrder := by
  unfold Obligations.PollingDrainsInOrder
  intro s k d hd
  exact ⟨fun hq => ⟨exec_decPoll_nil hd hq, by rw [Dec.resAvail, hq]; rfl⟩,
    fun r rest hq => ⟨exec_decPoll_cons hd hq, by rw [Dec.resAvail, hq]; rfl⟩, execAll_decPoll hd⟩

/-! ### A chunk in two pieces -/

/-- A chunk consumed whole was consumed whole up to every place in it. -/
theorem Dec.feed_append_eq_took {d d2 : Dec} {c1 c2 : List Byte} (h : d.feed (c1 ++ c2) = .took d2) :
    ∃ d1, d.feed c1 = .took d1 ∧ d1.feed c2 = .took d2 := by
  rw [Dec.feed_append] at h
  cases h1 : d.feed c1 with
  | took d1 => rw [h1] at h; exact ⟨d1, rfl, h⟩
  | held d1 rest => rw [h1] at h; cases h
  | fault r => rw [h1] at h; cases h

/-- Settles O28: the second piece goes on from where the first left off, and a poll between them from the same Decoder without its
oldest result. -/
theorem chunkingIsInvisible : Obligations.ChunkingIsInvisible := by
  unfold Obligations.ChunkingIsInvisible
  refine ⟨fun s k d d1 c1 c2 hd h => exec_decFeed_append hd ((exec_decFeed_eq_done_iff hd).mp h) c2,
    fun s k d d2 c1 c2 hd h => ?_⟩
  obtain ⟨d1, h1, h2⟩ := Dec.feed_append_eq_took ((exec_decFeed_eq_done_iff hd).mp h)
  have hget : ∀ (e : Dec) (v : Answer), ((s.setDec k e).answer v).decs[k]? = some e := fun e _ => State.setDec_get hd e
  have hget' : ∀ (e : Dec) (v w : Answer), (((s.setDec k e).answer v).answer w).decs[k]? = some e :=
    fun e _ _ => State.setDec_get hd e
  refine ⟨d1, exec_decFeed_took hd h1, ?_, ?_⟩
  · simp only [execAll, exec_decFeed_took hd h1, exec_decFeed_took (hget _ _) (Dec.feed_nil d1),
      exec_decFeed_took (hget' _ _ _) h2, State.answer_setDec, State.setDec_setDec]
  · have hpolled := Dec.feed_of_polled h2 (Nat.min_le_right 1 d1.results.length)
    simp only [execAll, exec_decFeed_took hd h1, exec_decPoll_eq (hget _ _), exec_decFeed_took (hget' _ _ _) hpolled,
      State.answer_setDec, State.setDec_setDec]

end Sys2Proof.Machine
end

section
/-! ## Noise without a sync pair (R124, R128)

Of such noise the Decoder keeps one thing: whether it ended in 0xB5. -/

namespace Sys2Proof.Machine

open Sys2Proof.Claim

theorem noSyncPair_of_append {c1 c2 : List Byte} (h : NoSyncPair (c1 ++ c2)) : NoSyncPair c1 := by
  have hget : ∀ {i : Nat} {x : Byte}, c1[i]? = some x → (c1 ++ c2)[i]? = some x := fun hx =>
    (List.getElem?_append_left (List.getElem?_eq_some_iff.mp hx).1).trans hx
  exact fun i ⟨h1, h2⟩ => h i ⟨hget h1, hget h2⟩

theorem ne_sync2_of_noSyncPair {bytes : List Byte} {x : Byte} (h : NoSyncPair (bytes ++ [x]))
    (hlast : bytes.getLast? = some 0xB5#8) : x ≠ 0x62#8 := by
  rintro rfl
  obtain ⟨pre, rfl⟩ := List.getLast?_eq_some_iff.mp hlast
  exact h pre.length (by simp)

/-- The Decoder that has consumed noise from the canonical idle state (R111, R112). -/
def afterNoise (p : DecoderParams) (q : List Result) (noise : List Byte) : Dec :=
  { idleDec p q with stage := if noise.getLast? = some 0xB5#8 then .seekSync2 else .seekSync1 }

section
variable {p : DecoderParams} {q : List Result}

theorem afterNoise_eq (noise : List Byte) :
    afterNoise p q noise = idleDec p q ∨ afterNoise p q noise = { idleDec p q with stage := .seekSync2 } := by
  unfold afterNoise
  split
  · exact .inr rfl
  · exact .inl rfl

/-- A byte 0xB5 is a candidate sync1 whatever came before it (R112). -/
theorem stepByte_afterNoise_sync1 (noise : List Byte) :
    (afterNoise p q noise).stepByte 0xB5#8 = .took { idleDec p q with stage := .seekSync2 } := by
  obtain h | h := afterNoise_eq (p := p) (q := q) noise <;> rw [h] <;> rfl

theorem stepByte_afterNoise {noise : List Byte} {x : Byte} (h : NoSyncPair (noise ++ [x])) :
    (afterNoise p q noise).stepByte x = .took (afterNoise p q (noise ++ [x])) := by
  by_cases hx : x = 0xB5#8
  · subst hx
    rw [stepByte_afterNoise_sync1]
    simp [afterNoise]
  · have hafter : afterNoise p q (noise ++ [x]) = idleDec p q := by simp [afterNoise, hx, idleDec]
    rw [hafter]
    by_cases hlast : noise.getLast? = some 0xB5#8
    · exact Dec.stepByte_seekSync2_other (if_pos hlast) (ne_sync2_of_noSyncPair h hlast) hx
    · have hbefore : afterNoise p q noise = idleDec p q := by simp [afterNoise, hlast, idleDec]
      rw [hbefore]
      exact Dec.stepByte_seekSync1_other rfl hx

theorem feed_noise {noise : List Byte} (h : NoSyncPair noise) :
    (idleDec p q).feed noise = .took (afterNoise p q noise) := by
  induction noise using List.reverseRecOn with
  | nil => rfl
  | append_singleton bytes x ih =>
    rw [Dec.feed_append_took [x] (ih (noSyncPair_of_append h)), Dec.feed_singleton, stepByte_afterNoise h]

end

/-- Settles O30, with the Decoder that `feed_noise` names. -/
theorem noiseYieldsNothing : Obligations.NoiseYieldsNothing := by
  unfold Obligations.NoiseYieldsNothing
  intro s k p q bytes hd hnoise
  exact ⟨afterNoise p q bytes, exec_decFeed_took hd (feed_noise hnoise), afterNoise_eq bytes⟩

/-- Settles O34: the frame's first byte takes the Decoder to the same place with the noise before it as without. -/
theorem noiseBeforeAFrameIsInvisible : Obligations.NoiseBeforeAFrameIsInvisible := by
  unfold Obligations.NoiseBeforeAFrameIsInvisible
  intro s k p q noise cls id payload hd hnoise _
  have hsync : ∀ rest, (afterNoise p q noise).feed (0xB5#8 :: rest) = (idleDec p q).feed (0xB5#8 :: rest) := fun rest =>
    Dec.feed_cons_took rest (stepByte_afterNoise_sync1 noise)
  rw [exec_decFeed_append hd (feed_noise hnoise), exec_decFeed_eq (State.setDec_get hd _), exec_decFeed_eq hd,
    State.settle_setDec]
  exact congrArg _ (hsync _)

end Sys2Proof.Machine
end

section
/-! ## A frame with one byte changed (R87, R129)

The changed bytes are a frame of the same length, with a checksum that is not the one of its domain. -/

namespace Sys2Proof.Machine

open Sys2Proof.Claim

/-- One byte changed changes the checksum (R87). -/
theorem fletcher_set_ne {bytes : List Byte} {i : Nat} {v old : Byte} (hold : bytes[i]? = some old) (hne : v ≠ old) :
    fletcher (bytes.set i v) ≠ fletcher bytes := by
  obtain ⟨hi, rfl⟩ := List.getElem?_eq_some_iff.mp hold
  have hbytes : bytes = bytes.take i ++ bytes[i] :: bytes.drop (i + 1) := by
    rw [List.getElem_cons_drop, List.take_append_drop]
  intro heq
  rw [List.set_eq_take_append_cons_drop, if_pos hi] at heq
  exact checksumDetectsChanges.1 _ _ _ _ hne (congrArg Prod.fst (heq.trans (congrArg fletcher hbytes)))

section
variable (cls id : Byte) (payload : List Byte) (ckA ckB : Byte)

theorem wire_set_payload {i : Nat} (hi : i < payload.length) (v : Byte) :
    (wire cls id payload ckA ckB).set (6 + i) v = wire cls id (payload.set i v) ckA ckB := by
  rw [Nat.add_comm]
  simp [wire, hi]

theorem wire_set_ckA (v : Byte) :
    (wire cls id payload ckA ckB).set (6 + payload.length) v = wire cls id payload v ckB := by
  rw [Nat.add_comm]
  simp [wire]

theorem wire_set_ckB (v : Byte) :
    (wire cls id payload ckA ckB).set (6 + (payload.length + 1)) v = wire cls id payload ckA v := by
  rw [Nat.add_comm]
  simp [wire]

theorem domain_set_payload (i : Nat) (v : Byte) :
    domain cls id (payload.set i v) = (domain cls id payload).set (4 + i) v := by
  rw [Nat.add_comm]
  simp [domain]

end

section
variable {cls id v old : Byte} {payload : List Byte}

/-- A byte changed behind the header, in the payload or in the checksum. -/
theorem exists_wire_of_set_behind_header {i : Nat} (hold : (encoded cls id payload)[6 + i]? = some old) (hne : v ≠ old) :
    ∃ payload' ckA ckB, payload'.length = payload.length ∧
      (encoded cls id payload).set (6 + i) v = wire cls id payload' ckA ckB ∧
      (ckA, ckB) ≠ fletcher (domain cls id payload') := by
  rw [encoded, wire_getElem?_six_add] at hold
  rw [encoded]
  obtain hi | rfl | rfl | hi : i < payload.length ∨ i = payload.length ∨ i = payload.length + 1 ∨
      payload.length + 2 ≤ i := by omega
  · refine ⟨payload.set i v, _, _, List.length_set, wire_set_payload _ _ _ _ _ hi v, ?_⟩
    have hdomain : (domain cls id payload)[4 + i]? = some old := by
      rw [domain, List.getElem?_append_right (by simp)]
      rw [List.getElem?_append_left hi] at hold
      simpa using hold
    rw [domain_set_payload]
    exact (fletcher_set_ne hdomain hne).symm
  · have hckA : (fletcher (domain cls id payload)).1 = old := by simpa using hold
    exact ⟨payload, v, _, rfl, wire_set_ckA .., fun heq => hne ((congrArg Prod.fst heq).trans hckA)⟩
  · have hckB : (fletcher (domain cls id payload)).2 = old := by simpa using hold
    exact ⟨payload, _, v, rfl, wire_set_ckB .., fun heq => hne ((congrArg Prod.snd heq).trans hckB)⟩
  · rw [List.getElem?_eq_none (by simpa using hi)] at hold
    cases hold

/-- An encoded frame with one byte changed that is no sync and no length byte is a frame of the same length whose checksum is
wrong. -/
theorem exists_wire_of_set_encoded {j : Nat} (hj : j ∉ [0, 1, 4, 5]) (hold : (encoded cls id payload)[j]? = some old)
    (hne : v ≠ old) :
    ∃ payload' ckA ckB, payload'.length = payload.length ∧
      (encoded cls id payload).set j v = wire (if j = 2 then v else cls) (if j = 3 then v else id) payload' ckA ckB ∧
      (ckA, ckB) ≠ fletcher (domain (if j = 2 then v else cls) (if j = 3 then v else id) payload') := by
  match j with
  | 0 | 1 | 4 | 5 => simp at hj
  | 2 => exact ⟨payload, _, _, rfl, rfl, (fletcher_set_ne (bytes := domain cls id payload) (i := 0) hold hne).symm⟩
  | 3 => exact ⟨payload, _, _, rfl, rfl, (fletcher_set_ne (bytes := domain cls id payload) (i := 1) hold hne).symm⟩
  | i + 6 =>
    rw [Nat.add_comm] at hold
    rw [if_neg (by omega), if_neg (by omega), Nat.add_comm]
    exact exists_wire_of_set_behind_header hold hne

end

theorem room_of_le {d : Dec} {m n : Nat} (h : Room d n) (hle : m ≤ n) : Room d m :=
  fun c hc => (Nat.add_le_add_left hle _).trans (h c hc)

/-- Settles O35: the first frame is one whose checksum is wrong, the second one whose checksum is right. -/
theorem corruptedFrameIsReportedAndTheNextDecoded : Obligations.CorruptedFrameIsReportedAndTheNextDecoded := by
  unfold Obligations.CorruptedFrameIsReportedAndTheNextDecoded
  intro s k p q cls id cls' id' payload payload' j v old hd hroom hfit hmax hfit' hmax' hj hold hne
  obtain ⟨payload₁, ckA, ckB, hlen, hset, hck⟩ := exists_wire_of_set_encoded hj hold hne
  have hfirst := Dec.feed_wire p q (if j = 2 then v else cls) (if j = 3 then v else id) (hlen ▸ hfit) (hlen ▸ hmax)
    (room_of_le hroom (by omega)) ckA ckB
  rw [frameResult, if_neg hck, ← hset] at hfirst
  have hroom' : ∀ r, Room (idleDec p (q ++ [r])) 1 := fun r c hc => by
    have hle := hroom c hc
    simp only [idleDec, List.length_append, List.length_singleton] at hle ⊢
    omega
  have hsecond := Dec.feed_encoded p _ cls' id' hfit' hmax'
    (hroom' (.error (.checksumMismatch (if j = 2 then v else cls) (if j = 3 then v else id))))
  rw [List.append_assoc] at hsecond
  exact exec_decFeed_took hd ((Dec.feed_append_took _ hfirst).trans hsecond)

end Sys2Proof.Machine
end

section
/-! ## The Decoder comes back to the canonical idle state (R132) -/

namespace Sys2Proof.Machine

open Sys2Proof.Claim

/-- The sync pair, from the canonical idle state (R111, R112). -/
theorem feed_readClass (p : DecoderParams) (q : List Result) (bytes : List Byte) :
    ({ idleDec p q with stage := .readClass } : Dec).feed bytes = (idleDec p q).feed (0xB5#8 :: 0x62#8 :: bytes) := rfl

/-- After a sync pair, any bytes as many as the longest frame has begin with a frame (R57). -/
theorem exists_wire_prefix {bytes : List Byte} (h : 6 + 65535 ≤ bytes.length) :
    ∃ cls id payload ckA ckB rest, payload.length ≤ 65535 ∧
      0xB5#8 :: 0x62#8 :: bytes = wire cls id payload ckA ckB ++ rest := by
  match bytes with
  | cls :: id :: l :: hi :: rest =>
    simp only [List.length_cons] at h
    have hn := (le16 l hi).isLt
    have hpayload : (rest.take (le16 l hi).toNat).length = (le16 l hi).toNat := by
      rw [List.length_take]
      omega
    match htail : rest.drop (le16 l hi).toNat with
    | ckA :: ckB :: tail =>
      refine ⟨cls, id, rest.take (le16 l hi).toNat, ckA, ckB, tail, by omega, ?_⟩
      rw [wire, hpayload, ofNat_eq_lo8, ofNat_div_eq_hi8, lo8_le16, hi8_le16]
      simp [← htail]
    | [] | [_] =>
      have hlen := congrArg List.length htail
      simp only [List.length_drop, List.length_nil, List.length_cons] at hlen
      omega
  | [] | [_] | [_, _] | [_, _, _] => simp at h

/-- Settles O37: the bytes after the pair begin with a frame; within the limit it is consumed whole, over it the header alone is. -/
theorem decoderReturnsToSeeking : Obligations.DecoderReturnsToSeeking := by
  unfold Obligations.DecoderReturnsToSeeking
  intro s k p q bytes hd hroom hlen
  obtain ⟨cls, id, payload, ckA, ckB, rest, hfit, hbytes⟩ := exists_wire_prefix hlen
  have hprefix : ∀ n, 0xB5#8 :: 0x62#8 :: bytes.take n = (wire cls id payload ckA ckB ++ rest).take (n + 2) := fun n => by
    rw [← hbytes]
    rfl
  by_cases hmax : Exceeds p payload.length
  · have hn := lengthField_toNat hfit
    refine ⟨4, .error (.payloadTooLarge cls id (lengthField payload)), by omega, exec_decFeed_took hd ?_⟩
    rw [feed_readClass, hprefix, wire_eq_header_append cls id hn, List.append_assoc,
      List.take_left' (length_frameHeader cls id _)]
    exact Dec.feed_frameHeader_of_exceeds p q cls id (hn.symm ▸ hmax) hroom
  · refine ⟨payload.length + 6, frameResult cls id payload ckA ckB, by omega, exec_decFeed_took hd ?_⟩
    rw [feed_readClass, hprefix, List.take_left' (length_wire ..)]
    exact Dec.feed_wire p q cls id hfit hmax hroom ckA ckB

end Sys2Proof.Machine
end

section
/-! ## The codes of results and errors (R149) -/

namespace Sys2Proof.Machine

/-- Settles O7, kind by kind: each code is its constructor's own arm of `resultKind` or `BlockError.code`, which looks at no
field the result or the error carries. -/
theorem resultAndErrorKindsHaveTheirCodes : Obligations.ResultAndErrorKindsHaveTheirCodes := by
  unfold Obligations.ResultAndErrorKindsHaveTheirCodes
  refine ⟨?none, ?frame, ?error, ?oversizedPayload, ?checksumMismatch, ?payloadTooLarge⟩
  case none => rfl
  case frame => exact fun _ => rfl
  case error => exact fun _ => rfl
  case oversizedPayload => rfl
  case checksumMismatch => exact fun _ _ => rfl
  case payloadTooLarge => exact fun _ _ _ => rfl

end Sys2Proof.Machine
end

section
/-! ## A result that meets a full queue (R181) -/

namespace Sys2Proof.Machine

open Sys2Proof.Claim

section
variable {s : State} {k : Nat} {d : Dec} {x : Byte}

theorem Dec.hasRoom_iff_room : d.hasRoom = true ↔ Room d 1 := by
  refine ⟨fun h c hc => ?_, Dec.hasRoom_of_room⟩
  simpa [Dec.hasRoom, hc] using h

/-- With the queue full, the byte that would judge a frame is held back (R119, R181). -/
theorem Dec.stepByte_readCkB_full (hs : d.stage = .readCkB) (hfull : ¬Room d 1) : d.stepByte x = .held d [x] := by
  rw [Dec.stepByte_eq_readCkB hs, Dec.readCkB_eq, if_neg (mt Dec.hasRoom_iff_room.mp hfull)]

/-- With the queue full, the byte that completes a length over the limit is held back (R116, R181). -/
theorem Dec.stepByte_readLenHi_full (hs : d.stage = .readLenHi) (hlow : d.length.toNat < 256)
    (hmax : Exceeds d.params (d.length.toNat + 256 * x.toNat)) (hfull : ¬Room d 1) : d.stepByte x = .held d [x] := by
  rw [← assembledLength_toNat hlow] at hmax
  rw [Dec.stepByte_eq_readLenHi hs, Dec.readLenHi_eq, if_pos (exceedsMax_iff.mpr hmax),
    if_neg (mt Dec.hasRoom_iff_room.mp hfull)]

/-- A byte held back holds back the bytes after it (R41, R181). -/
theorem Dec.feed_cons_held (rest : List Byte) (h : d.stepByte x = .held d [x]) :
    d.feed (x :: rest) = .held d (x :: rest) := by simp only [Dec.feed, h]

/-- Where nothing was consumed the Decoder is the one that stood there, so only the answer is new. -/
theorem State.settle_held_self (hd : s.decs[k]? = some d) (rest : List Byte) :
    s.settle k (.held d rest) = .next (s.answer (.heldBack rest)) := by
  rw [State.settle, State.setDec_self hd]

theorem exec_decStep_held (hd : s.decs[k]? = some d) (h : d.stepByte x = .held d [x]) :
    exec (.decStep k x) s = .next (s.answer (.heldBack [x])) := by
  rw [exec_decStep_eq hd, h, State.settle_held_self hd]

/-- The arm that the Decoder's stage and the byte select holds the byte back as `DEC.STEP` does. -/
theorem exec_arm_held {st : DecStage} {i : Instr} (hd : s.decs[k]? = some d) (hs : d.stage = st)
    (hi : decode (.rxWord k (rxWordOf st x)) = .ok i) (h : d.stepByte x = .held d [x]) :
    exec i s = .next (s.answer (.heldBack [x])) := by
  subst hs
  obtain ⟨j, hj, harm⟩ := exec_rxArm_stage hd x
  obtain rfl : j = i := Except.ok.inj (hj.symm.trans hi)
  rw [harm, h, State.settle_held_self hd]

theorem exec_decFeed_cons_held (hd : s.decs[k]? = some d) (h : d.stepByte x = .held d [x]) (rest : List Byte) :
    exec (.decFeed k (x :: rest)) s = .next (s.answer (.heldBack (x :: rest))) := by
  rw [exec_decFeed_eq hd, Dec.feed_cons_held rest h, State.settle_held_self hd]

end

/-- Settles O25: in either stage `Dec.stepByte` holds the byte back and leaves the Decoder as it was, and every form of the step
answers so. A chunk goes on from where the piece before was consumed whole. -/
theorem fullQueueHoldsBytesBack : Obligations.FullQueueHoldsBytesBack := by
  unfold Obligations.FullQueueHoldsBytesBack
  refine ⟨fun s k d x hd hfull hcompletes => ?_, fun s t k d e pre rest held hd hpre hrest => ?_⟩
  · have hheld : d.stepByte x = .held d [x] := by
      obtain hs | ⟨hs, hlow, hmax⟩ := hcompletes
      · exact Dec.stepByte_readCkB_full hs hfull
      · exact Dec.stepByte_readLenHi_full hs hlow hmax hfull
    exact ⟨exec_decStep_held hd hheld,
      fun hs => exec_arm_held hd hs (Laws.RoundTrip.decode_rxWordOf k _ x) hheld,
      fun hs => exec_arm_held hd hs (Laws.RoundTrip.decode_rxWordOf k _ x) hheld,
      exec_decFeed_cons_held hd hheld⟩
  · rw [exec_decFeed_append hd ((exec_decFeed_eq_done_iff hd).mp hpre) rest]
    exact hrest

end Sys2Proof.Machine
end
